-- ==== Sys2Proof/Word.lean ====
section
/-! DEFINITION. The word types of the bfvm dispatch interpreter block: the widths that spec/00_scope.md R7, R8 and
R11 give, and nothing else. -/

namespace Sys2Proof

/-- One tape cell, and one byte of a stream: 8 bits, unsigned (R7). -/
abbrev Byte := BitVec 8

/-- One instruction word of program memory, and one host register: 32 bits (R8, R28). -/
abbrev Word := BitVec 32

/-- The opcode field, 4 bits (R8). -/
abbrev Opcode := BitVec 4

/-- The operand field, 28 bits, always unsigned (R8, R62, R63). -/
abbrev Operand := BitVec 28

/-- The width of the instruction pointer, the operand width (R11). -/
abbrev ProgIndex := BitVec 28

/-- The width of the data pointer, 15 bits (R11). -/
abbrev TapeIndex := BitVec 15

end Sys2Proof
end

