-- ==== Sys2Proof/Config.lean ====
section
/-! DEFINITION. The parameters of the block (spec/00_scope.md R6, R9, R10) and the free values the spec leaves open. -/

namespace Sys2Proof

/-- What READ does when the input stream is exhausted (spec/42_io.md R124). -/
inductive EofPolicy where
  /-- Raise InputReadError with info 1. -/
  | fault
  /-- Store 0. -/
  | zero
  /-- Store 0xFF. -/
  | allOnes
  /-- Leave the cell as it was. -/
  | unchanged
deriving DecidableEq, Repr

/-- The configuration fields a model takes (R6, R9, R10). They are not state (spec/10_state.md R20). -/
structure Config where
  /-- `TAPE_LEN`, the number of tape cells (R6). -/
  tapeLen : Nat
  /-- `PROG_DEPTH`, the capacity of program memory in words (R9). -/
  progDepth : Nat
  /-- `EOF_POLICY` (R10). -/
  eofPolicy : EofPolicy
deriving DecidableEq, Repr

/-- Implementation-defined: `PROG_DEPTH - 1`. R9 allows every capacity from 1 to 2^28 - 1 and fixes none, so the value
has no body and a claim holds for all of them (log entry 1). -/
opaque Config.progDepthLessOne : Fin 268435455

/-- Free value: what program memory holds at an index nothing has loaded since power-on (spec/10_state.md R38,
`any value`). The first argument numbers the power-on, the second is the index (log entry 2). -/
opaque Config.powerOnWord : Nat → Nat → Word

/-- This hardware: `TAPE_LEN` = 30000 (R6), `EOF_POLICY` = FAULT (R10), any allowed `PROG_DEPTH` (R9). -/
def Config.hw : Config where
  tapeLen := 30000
  progDepth := Config.progDepthLessOne.val + 1
  eofPolicy := .fault

/-- The limits the spec sets on the parameters: the 15-bit data pointer holds every tape index (R11), the initial
data pointer 0 is a cell, and `1 <= PROG_DEPTH <= 2^28 - 1` (R9). -/
abbrev Config.wf (c : Config) : Prop :=
  1 ≤ c.tapeLen ∧ c.tapeLen ≤ 32768 ∧ 1 ≤ c.progDepth ∧ c.progDepth ≤ 268435455

end Sys2Proof
end

