-- ==== Sys2Proof/Machine/State.lean ====
section
/-! DEFINITION. The machine's state as plain data: the block's own state (spec/10_state.md R20), the host's side of
the ports, and the state after reset. -/

namespace Sys2Proof.Machine

/-- `STATE`, the run state (R27). -/
inductive RunState where
  /-- After reset; program memory loadable; the core does not step. -/
  | idle
  /-- The core steps. -/
  | running
  /-- END executed; terminal until reset. -/
  | halted
  /-- A fault was raised; terminal until reset. -/
  | faulted
deriving DecidableEq, Repr

/-- `WAIT`, what the core is held on (R32). The value 3 is never produced. -/
inductive Wait where
  /-- Not held. -/
  | none
  /-- A READ waits for an input event. -/
  | input
  /-- A WRITE waits for the host to accept its byte. -/
  | output
deriving DecidableEq, Repr

/-- `FAULT_CAUSE`, the fault that ended the run (R29). Codes 5 to 15 are never produced. -/
inductive FaultCause where
  /-- No fault. -/
  | none
  /-- PointerRangeError (R161). -/
  | pointerRange
  /-- InputReadError (R162). -/
  | inputRead
  /-- IllegalOpcode (R163). -/
  | illegalOpcode
  /-- FetchRangeError (R164). -/
  | fetchRange
deriving DecidableEq, Repr

/-- One answer of the host to an input request (spec/42_io.md R122). -/
inductive InputEvent where
  /-- The next byte of the input stream. -/
  | byte (b : Byte)
  /-- The input stream is exhausted. -/
  | endOfInput
  /-- The byte cannot be read. -/
  | error
deriving DecidableEq, Repr

/-- The host's interactions with the block, the rows of spec/60_exceptions.md R177. Reset, set length and start are
writes of the CONTROL and PROG_LEN registers (R33, R34). Addresses and indices are numbers, since the spec gives the
ports no width (log entry 18). -/
inductive HostAction where
  /-- Power-on. -/
  | powerOn
  /-- Write a host register. -/
  | writeReg (addr : Nat) (v : Word)
  /-- Load one word into program memory (spec/20_memory.md R41). -/
  | load (i : Nat) (w : Word)
  /-- Answer the outstanding input request. -/
  | answer (e : InputEvent)
  /-- Accept the byte that is offered. -/
  | accept
  /-- Read a host register. -/
  | readReg (addr : Nat)
  /-- Read one cell through the tape readback port. -/
  | readTape (a : Nat)
deriving DecidableEq, Repr

/-- Which agent moves in one step (log entry 6). -/
inductive Turn where
  /-- The core. -/
  | core
  /-- The host, with this interaction. -/
  | host (a : HostAction)
deriving DecidableEq, Repr

/-- The tape: the cells that are not 0, by rising index (log entry 16). A cell that is not listed reads 0, the value
reset leaves (R38). -/
abbrev Tape := List Host.Cell

/-- Program memory: the words loaded since power-on, by rising index (log entry 16). It is word-addressed (R40), so
a cell of it is a word. -/
abbrev IMem := List (Nat × Word)

/-- The machine's state. The first ten fields are the block's architectural state, and R20 says that list is exact;
`imemDraw` is the model's own; the last seven are the host's side of the ports, which R20 gives to the host and the
step reads or an observer of a run needs (log entries 2, 5, 6, 19). -/
structure State where
  /-- The instruction pointer (R23). -/
  ip : ProgIndex
  /-- The data pointer (R25). -/
  dp : TapeIndex
  /-- The tape (R26). -/
  tape : Tape
  /-- Program memory (R40). -/
  imem : IMem
  /-- `PROG_LEN` (R34). -/
  progLen : BitVec 28
  /-- `STATE` (R27). -/
  runState : RunState
  /-- `WAIT` (R32). -/
  wait : Wait
  /-- `FAULT_CAUSE` (R29). -/
  faultCause : FaultCause
  /-- `FAULT_INFO` (R30). -/
  faultInfo : BitVec 4
  /-- `FAULT_IP`, bits 27:0; the others read 0 (R31). -/
  faultIp : ProgIndex
  /-- Which draw of unspecified contents program memory holds (log entry 2). -/
  imemDraw : Nat
  /-- The input events the host has ready for the coming input requests, in order (R122). -/
  hostInput : List InputEvent
  /-- How many further bytes the host accepts the moment they are offered (R120). -/
  hostAccepts : Nat
  /-- The bytes the host has accepted, oldest first (R120). -/
  hostOutput : List Byte
  /-- How many input events the host's answers have used up (R180). -/
  hostTaken : Nat
  /-- How many bytes the host had accepted when the current or last run was started (R180, log entry 19). -/
  outputAtStart : Nat
  /-- How many input events were used up when the current or last run was started (R180, log entry 19). -/
  takenAtStart : Nat
  /-- Who moves in the coming steps; after the last one the core moves (log entry 6). -/
  turns : List Turn
deriving DecidableEq, Repr

/-- Why a step stops. The faults of the spec are no stops: R165 enters FAULTED, a next state (log entry 10). Both
reasons arise only in states no run reaches. -/
inductive Fault where
  /-- A cell access with `dp >= TAPE_LEN`, where no cell exists (R26). Raised by ADD_BYTE, SUB_BYTE, WRITE, READ,
  JUMP_IF_ZERO and the host's completion of a held READ or WRITE; safe (log entry 11). -/
  | noSuchCell
  /-- A fetch with `PROG_DEPTH <= ip < PROG_LEN`, where no word exists (R40). Raised by the fetch; safe
  (log entry 12). -/
  | noSuchWord
deriving DecidableEq, Repr

/-- Why an instruction has no meaning. -/
inductive Refusal where
  /-- An instruction of the opcode table without a meaning in this model; raised by an arm of `exec`; safe. No arm
  raises it now. -/
  | notModelled (mnemonic : String)
deriving DecidableEq, Repr

/-- What one step answers. -/
abbrev Result := Host.Outcome State Fault Refusal

/-- The machine right after a power-on reset (R38, spec/70_reset_and_hazards.md R190): the power-on column of R38.
Program memory is unspecified, so nothing is listed. The last eight fields are log entries 2, 5,
6 and 19. -/
def State.reset : State where
  ip := 0
  dp := 0
  tape := []
  imem := []
  progLen := 0
  runState := .idle
  wait := .none
  faultCause := .none
  faultInfo := 0
  faultIp := 0
  imemDraw := 0
  hostInput := []
  hostAccepts := 0
  hostOutput := []
  hostTaken := 0
  outputAtStart := 0
  takenAtStart := 0
  turns := []

end Sys2Proof.Machine
end

