-- ==== Sys2Proof/Machine/Operands.lean ====
section
/-! DEFINITION. The operand forms (spec/30_encoding.md R62 to R65): the count, the target, the implicit cell. WRITE,
READ and END have an operand field they ignore (R64), so their meanings take it and use nothing of it. -/

namespace Sys2Proof.Machine

/-- A repeat count: the 28 operand bits as an unsigned number (R62). -/
def countOf (n : Operand) : Nat := n.toNat

/-- A jump target: the 28 operand bits as an absolute, 0-based instruction index (R63). -/
def targetOf (t : Operand) : ProgIndex := t

/-- The implicit cell operand is the cell at the data pointer (R65, spec/20_memory.md R43): the tape index of every
access an instruction makes. -/
def cellAddr (s : State) : Nat := s.dp.toNat

end Sys2Proof.Machine
end

