-- ==== Sys2Proof/Machine/Flags.lean ====
section
/-! DEFINITION. The block has no flags, condition codes or predicates (spec/10_state.md R22). The one condition of
the ISA is JUMP_IF_ZERO's test of the cell itself. -/

namespace Sys2Proof.Machine

/-- The test of JUMP_IF_ZERO: only the value 0 counts as zero (spec/43_control.md R130). -/
def cellIsZero (v : Byte) : Bool := v == 0

end Sys2Proof.Machine
end

