-- ==== Sys2Proof/Machine/Ops.lean ====
section
/-! DEFINITION. The named operations over memory, registers and the ports, and fault entry. Every operation that
depends on a parameter takes the configuration (spec/00_scope.md R6, R10). -/

namespace Sys2Proof.Machine

/-! ## Sparse memories by rising key -/

/-- The value listed at a key. -/
def lookupKey {α : Type} (k : Nat) : List (Nat × α) → Option α
  | [] => none
  | (j, v) :: rest => if j = k then some v else lookupKey k rest

/-- List a value at a key, keeping the keys rising. -/
def setKey {α : Type} (k : Nat) (v : α) : List (Nat × α) → List (Nat × α)
  | [] => [(k, v)]
  | (j, w) :: rest =>
    if k < j then (k, v) :: (j, w) :: rest
    else if k = j then (k, v) :: rest
    else (j, w) :: setKey k v rest

/-- Take every entry of a key out of the list. -/
def eraseKey {α : Type} (k : Nat) : List (Nat × α) → List (Nat × α)
  | [] => []
  | (j, w) :: rest => if j = k then eraseKey k rest else (j, w) :: eraseKey k rest

/-- The keys rise strictly, so no key is listed twice. -/
abbrev keysRise {α : Type} (m : List (Nat × α)) : Prop := m.Pairwise fun p q => p.1 < q.1

/-! ## The tape -/

/-- What a cell holds: a cell that is not listed holds 0 (spec/10_state.md R38). -/
def Tape.get (m : Tape) (a : Nat) : Byte := (lookupKey a m).getD 0

/-- Set a cell; a cell that becomes 0 is not listed. -/
def Tape.set (m : Tape) (a : Nat) (v : Byte) : Tape := if v = 0 then eraseKey a m else setKey a v m

/-- The canonical form: keys rise, every listed cell exists and is not 0. -/
abbrev Tape.wf (c : Config) (m : Tape) : Prop := keysRise m ∧ ∀ p ∈ m, p.1 < c.tapeLen ∧ p.2 ≠ 0

/-- `MemRead(a, 1)` (spec/00_scope.md R14, spec/20_memory.md R45): none where no cell exists (spec/10_state.md R26). -/
def memRead (c : Config) (a : Nat) (s : State) : Option Byte :=
  if a < c.tapeLen then some (s.tape.get a) else none

/-- `MemWrite(a, 1, v)` (spec/00_scope.md R14, spec/20_memory.md R45): none where no cell exists. -/
def memWrite (c : Config) (a : Nat) (v : Byte) (s : State) : Option State :=
  if a < c.tapeLen then some { s with tape := s.tape.set a v } else none

/-! ## Program memory -/

/-- The canonical form: indices rise, every listed word exists (spec/20_memory.md R40). -/
abbrev IMem.wf (c : Config) (m : IMem) : Prop := keysRise m ∧ ∀ p ∈ m, p.1 < c.progDepth

/-- Both memories are in canonical form. -/
abbrev Memory.wf (c : Config) (s : State) : Prop := Tape.wf c s.tape ∧ IMem.wf c s.imem

/-- `IMem[i]` (spec/20_memory.md R40): a loaded word, or the free value an index holds that nothing has loaded since
power-on (spec/10_state.md R38, log entry 2); none where no word exists. -/
def progWord (c : Config) (i : Nat) (s : State) : Option Word :=
  match lookupKey i s.imem with
  | some w => some w
  | none => if i < c.progDepth then some (Config.powerOnWord s.imemDraw i) else none

/-! ## Sequencing (spec/30_encoding.md R71) -/

/-- `ip <- ip + 1`. -/
def advance (s : State) : State := { s with ip := s.ip + 1 }

/-- `ip <- t`, exactly. -/
def jumpTo (t : ProgIndex) (s : State) : State := { s with ip := t }

/-- `dp <- t`. -/
def setDp (t : TapeIndex) (s : State) : State := { s with dp := t }

/-- `halt`: enter HALTED and change nothing else (spec/44_halt.md R140). -/
def haltCore (s : State) : State := { s with runState := .halted }

/-! ## Faults (spec/60_exceptions.md R165) -/

/-- Fault entry, `raise C(info)`: the record is written, the core stops in FAULTED, nothing else changes. -/
def raise (cause : FaultCause) (info : BitVec 4) (s : State) : State :=
  { s with runState := .faulted, faultCause := cause, faultInfo := info, faultIp := s.ip }

/-- Reset (spec/70_reset_and_hazards.md R190), the only way out of FAULTED (spec/60_exceptions.md R168). Program
memory and `PROG_LEN` keep their values; an outstanding request is withdrawn without an event consumed or a byte
delivered, so the host's side is unchanged (log entry 24). -/
def resetBlock (s : State) : State :=
  { s with ip := 0, dp := 0, tape := [], runState := .idle, wait := .none,
           faultCause := .none, faultInfo := 0, faultIp := 0 }

/-- Power-on: a reset with `PROG_LEN` 0 and unspecified program memory (spec/10_state.md R38). -/
def powerOn (s : State) : State :=
  { resetBlock s with imem := [], progLen := 0, imemDraw := s.imemDraw + 1 }

/-! ## The implicit cell -/

/-- Read the cell at the data pointer and go on with it. -/
def withCell (c : Config) (s : State) (next : Byte → Result) : Result :=
  match memRead c (cellAddr s) s with
  | some v => next v
  | none => .fault .noSuchCell

/-- Write the cell at the data pointer and advance. -/
def storeCell (c : Config) (v : Byte) (s : State) : Result :=
  match memWrite c (cellAddr s) v s with
  | some t => .next (advance t)
  | none => .fault .noSuchCell

/-! ## Cell arithmetic (spec/40_cell_arithmetic.md R102): exact integers, then the residue modulo 256 -/

/-- `(v + k) mod 256`. -/
def cellAdd (v : Byte) (k : Nat) : Byte := BitVec.ofNat 8 (v.toNat + k)

/-- `(v - k) mod 256`, the non-negative residue (spec/00_scope.md R13). -/
def cellSub (v : Byte) (k : Nat) : Byte := BitVec.ofInt 8 ((v.toNat : Int) - k)

/-! ## The pointer arithmetic unit (spec/41_pointer_arithmetic.md R110) -/

/-- Check the candidate pointer, an exact integer, and write it or raise PointerRangeError. -/
def movePtr (c : Config) (t : Int) (s : State) : State :=
  if t ≥ c.tapeLen then raise .pointerRange 0 s
  else if t < 0 then raise .pointerRange 1 s
  else advance (setDp (BitVec.ofInt 15 t) s)

/-! ## The output port (spec/42_io.md R120) -/

/-- The host accepts the offered byte: it joins the host's output, `WAIT <- 0`, and the WRITE completes. -/
def acceptByte (b : Byte) (s : State) : State :=
  advance { s with hostOutput := s.hostOutput ++ [b], wait := .none }

/-- `OutPut(b)` and the completion of the WRITE: accepted at once while the host takes bytes, else the core is held
with `WAIT` = 2 (log entries 7, 8). -/
def offerByte (b : Byte) (s : State) : State :=
  match s.hostAccepts with
  | 0 => { s with wait := .output }
  | k + 1 => acceptByte b { s with hostAccepts := k }

/-! ## The input port (spec/42_io.md R122) -/

/-- An answer uses up its event and sets `WAIT <- 0`, before any fault of the READ (R122; log entry 22). -/
def takeEvent (s : State) : State := { s with wait := .none, hostTaken := s.hostTaken + 1 }

/-- What a READ does with the event it got (R123), at end of input as `EOF_POLICY` says (R124). -/
def finishRead (c : Config) (e : InputEvent) (s : State) : Result :=
  match e with
  | .byte b => storeCell c b (takeEvent s)
  | .error => .next (raise .inputRead 0 (takeEvent s))
  | .endOfInput =>
    match c.eofPolicy with
    | .fault => .next (raise .inputRead 1 (takeEvent s))
    | .zero => storeCell c 0 (takeEvent s)
    | .allOnes => storeCell c 0xFF (takeEvent s)
    | .unchanged => .next (advance (takeEvent s))

/-- What a WRITE does when its byte is accepted (R120, R121). -/
def finishWrite (c : Config) (s : State) : Result :=
  withCell c s fun b => .next (acceptByte b s)

end Sys2Proof.Machine
end

