-- ==== Sys2Proof/Machine/CellArith.lean ====
section
/-! DEFINITION. ADD_BYTE and SUB_BYTE (spec/40_cell_arithmetic.md). -/

namespace Sys2Proof.Machine

/-- ADD_BYTE n: the cell at the data pointer plus the count, modulo 256 (R100). -/
def execAddByte (n : Operand) (s : State) : Result :=
  withCell Config.hw s fun v => storeCell Config.hw (cellAdd v (countOf n)) s

/-- SUB_BYTE n: the cell at the data pointer minus the count, modulo 256 (R101). -/
def execSubByte (n : Operand) (s : State) : Result :=
  withCell Config.hw s fun v => storeCell Config.hw (cellSub v (countOf n)) s

end Sys2Proof.Machine
end

