-- ==== Sys2Proof/Machine/Control.lean ====
section
/-! DEFINITION. JUMP_IF_ZERO and JUMP (spec/43_control.md). -/

namespace Sys2Proof.Machine

/-- JUMP_IF_ZERO t: to the target when the cell at the data pointer is zero, else fall through (R130). -/
def execJumpIfZero (t : Operand) (s : State) : Result :=
  withCell Config.hw s fun v => .next (if cellIsZero v then jumpTo (targetOf t) s else advance s)

/-- JUMP t: to the target, without a test and without a check (R131). -/
def execJump (t : Operand) (s : State) : Result :=
  .next (jumpTo (targetOf t) s)

end Sys2Proof.Machine
end

