-- ==== Sys2Proof/Machine/Halt.lean ====
section
/-! DEFINITION. END (spec/44_halt.md). -/

namespace Sys2Proof.Machine

/-- END: enter HALTED, with `ip` at the END's own index (R140); the operand bits are ignored (spec/30_encoding.md
R64). -/
def execEndRun (_z : Operand) (s : State) : Result :=
  .next (haltCore s)

end Sys2Proof.Machine
end

