-- ==== Sys2Proof/Machine/Illegal.lean ====
section
/-! DEFINITION. The illegal rows of the opcode table: decoding one raises IllegalOpcode with the opcode value as the
info, whatever the operand bits (spec/30_encoding.md R66, spec/60_exceptions.md R163). -/

namespace Sys2Proof.Machine

/-- Opcode 9. -/
def execIllegal9 (_x : Operand) (s : State) : Result :=
  .next (raise .illegalOpcode 9 s)

/-- Opcodes 10 and 11. -/
def execIllegalAB (lo : BitVec 1) (_x : Operand) (s : State) : Result :=
  .next (raise .illegalOpcode (5#3 ++ lo) s)

/-- Opcodes 12 to 15. -/
def execIllegalCF (lo : BitVec 2) (_x : Operand) (s : State) : Result :=
  .next (raise .illegalOpcode (3#2 ++ lo) s)

end Sys2Proof.Machine
end

