-- ==== Sys2Proof/Machine/PtrArith.lean ====
section
/-! DEFINITION. ADD_PTR and SUB_PTR (spec/41_pointer_arithmetic.md). -/

namespace Sys2Proof.Machine

/-- ADD_PTR n: the data pointer plus the count, range checked (R111). -/
def execAddPtr (n : Operand) (s : State) : Result :=
  .next (movePtr Config.hw ((s.dp.toNat : Int) + countOf n) s)

/-- SUB_PTR n: the data pointer minus the count, range checked (R112, by the unit of R110). -/
def execSubPtr (n : Operand) (s : State) : Result :=
  .next (movePtr Config.hw ((s.dp.toNat : Int) - countOf n) s)

end Sys2Proof.Machine
end

