-- ==== Sys2Proof/Machine/StreamIO.lean ====
section
/-! DEFINITION. WRITE and READ (spec/42_io.md). -/

namespace Sys2Proof.Machine

/-- WRITE: offer the cell at the data pointer (R121); the operand bits are ignored (spec/30_encoding.md R64). -/
def execWrite (_z : Operand) (s : State) : Result :=
  withCell Config.hw s fun b => .next (offerByte b s)

/-- READ: take the next input event into the cell at the data pointer (R123), or raise the request and hold with
`WAIT` = 1 while the host has no event ready (R122); the operand bits are ignored (spec/30_encoding.md R64). -/
def execRead (_z : Operand) (s : State) : Result :=
  match s.hostInput with
  | [] => .next { s with wait := .input }
  | e :: rest => finishRead Config.hw e { s with hostInput := rest }

end Sys2Proof.Machine
end

