-- ==== Sys2Proof/Syntax.lean ====
section
/-! DEFINITION. The instructions: one constructor per row of spec/opcode_table.json. -/

namespace Sys2Proof

/-- An instruction word, decoded. Every bit of the word below the row's fixed bits is a field, the ignored bits of
WRITE, READ, END and the illegal rows too (spec/30_encoding.md R64, R66; log entry 15): no two words decode to one
term, and the meanings say which fields they ignore. -/
inductive Instr where
  /-- ADD_BYTE: add the count to the cell at the data pointer (R100). -/
  | addByte (n : Operand)
  /-- SUB_BYTE: subtract the count from the cell at the data pointer (R101). -/
  | subByte (n : Operand)
  /-- ADD_PTR: move the data pointer right by the count (R111). -/
  | addPtr (n : Operand)
  /-- SUB_PTR: move the data pointer left by the count (R112). -/
  | subPtr (n : Operand)
  /-- WRITE: emit the cell; the operand bits are ignored (R121, R64). -/
  | write (z : Operand)
  /-- READ: consume one input event into the cell; the operand bits are ignored (R123, R64). -/
  | read (z : Operand)
  /-- JUMP_IF_ZERO: jump to the target when the cell is zero (R130). -/
  | jumpIfZero (t : Operand)
  /-- JUMP: jump to the target (R131). -/
  | jump (t : Operand)
  /-- END: halt; the operand bits are ignored (R140, R64). -/
  | endRun (z : Operand)
  /-- (illegal), the table's row 1001: opcode 9 (R66). -/
  | illegal9 (x : Operand)
  /-- (illegal), the table's row 101x: opcodes 10 and 11; `lo` is the row's free opcode bit (R66). -/
  | illegalAB (lo : BitVec 1) (x : Operand)
  /-- (illegal), the table's row 11xx: opcodes 12 to 15; `lo` holds the row's two free opcode bits (R66). -/
  | illegalCF (lo : BitVec 2) (x : Operand)
deriving DecidableEq, Repr

end Sys2Proof
end

