-- ==== Sys2Proof/Machine/Dispatch.lean ====
section
/-! DEFINITION. One arm per instruction (spec/30_encoding.md R70). -/

namespace Sys2Proof.Machine

def exec (i : Instr) (s : State) : Host.Outcome State Fault Refusal :=
  match i with
  | .addByte n => Sys2Proof.Machine.execAddByte n s
  | .subByte n => Sys2Proof.Machine.execSubByte n s
  | .addPtr n => Sys2Proof.Machine.execAddPtr n s
  | .subPtr n => Sys2Proof.Machine.execSubPtr n s
  | .write z => Sys2Proof.Machine.execWrite z s
  | .read z => Sys2Proof.Machine.execRead z s
  | .jumpIfZero t => Sys2Proof.Machine.execJumpIfZero t s
  | .jump t => Sys2Proof.Machine.execJump t s
  | .endRun z => Sys2Proof.Machine.execEndRun z s
  | .illegal9 x => Sys2Proof.Machine.execIllegal9 x s
  | .illegalAB lo x => Sys2Proof.Machine.execIllegalAB lo x s
  | .illegalCF lo x => Sys2Proof.Machine.execIllegalCF lo x s

end Sys2Proof.Machine
end

