-- ==== Sys2Proof/WellFormed.lean ====
section
/-! DEFINITION. What the translator produces and the hardware does not check: well-formed words and well-formed
images (spec/30_encoding.md R72). The machine gives every word and every image a meaning, well-formed or not (R70). -/

namespace Sys2Proof

/-- A word a well-formed image may hold: opcode 0 to 8 (R72 c), operand 0 for WRITE, READ and END (R72 d), a count of
at least 1 (R72 e). -/
def Instr.wellFormed : Instr → Bool
  | .addByte n => n != 0
  | .subByte n => n != 0
  | .addPtr n => n != 0
  | .subPtr n => n != 0
  | .write z => z == 0
  | .read z => z == 0
  | .jumpIfZero _ => true
  | .jump _ => true
  | .endRun z => z == 0
  | .illegal9 _ => false
  | .illegalAB _ _ => false
  | .illegalCF _ _ => false

/-- Whether the instruction is END, whatever its ignored operand. -/
def Instr.isEnd : Instr → Bool
  | .endRun _ => true
  | _ => false

/-- Condition (a) and (b) of R72: the image is not empty, its last word is END, and no other word is. -/
def endsOnce : List Instr → Bool
  | [] => false
  | [i] => i.isEnd
  | i :: j :: rest => !i.isEnd && endsOnce (j :: rest)

/-- Condition (f) of R72, read in index order. `stack` holds the index and the operand of every JUMP_IF_ZERO that is
still open, innermost first; `idx` is the index of the next word. The result is what is still open at the end, and
none when a JUMP meets no open JUMP_IF_ZERO or the pair's operands are not `b + 1` and `a`. -/
def matchJumps : List Instr → Nat → List (Nat × Operand) → Option (List (Nat × Operand))
  | [], _, stack => some stack
  | .jumpIfZero t :: rest, idx, stack => matchJumps rest (idx + 1) ((idx, t) :: stack)
  | .jump t :: rest, idx, stack =>
    match stack with
    | [] => none
    | (a, u) :: open' =>
      if u.toNat = idx + 1 ∧ t.toNat = a then matchJumps rest (idx + 1) open' else none
  | _ :: rest, idx, stack => matchJumps rest (idx + 1) stack

/-- Condition (f) of R72: the jumps pair up as properly nested brackets with the operands of their partners. -/
def jumpsPaired (prog : List Instr) : Bool :=
  matchJumps prog 0 [] == some []

/-- A well-formed image (R72 a to f). -/
def wellFormedImage (prog : List Instr) : Bool :=
  endsOnce prog && prog.all Instr.wellFormed && jumpsPaired prog

end Sys2Proof
end

