-- ==== Sys2Proof/Decode.lean ====
section
/-! DEFINITION. The decoder (spec/30_encoding.md R69), the encoder (R88), the opcode table's rows, the image file's
byte form (spec/20_memory.md R42) and the listing form (R73). -/

namespace Sys2Proof

/-- Bits 31:28 of a word (R60). -/
def opcodeField (w : Word) : Opcode := w.extractLsb' 28 4

/-- Bits 27:0 of a word (R60). -/
def operandField (w : Word) : Operand := w.extractLsb' 0 28

/-- Decoding is total on 32-bit words and refuses none: opcodes 0 to 8 are the nine instructions, 9 to 15 are the
illegal rows (R69, R61, R66). -/
def decode (w : Word) : Instr :=
  let n := operandField w
  match (opcodeField w).toNat with
  | 0 => .addByte n
  | 1 => .subByte n
  | 2 => .addPtr n
  | 3 => .subPtr n
  | 4 => .write n
  | 5 => .read n
  | 6 => .jumpIfZero n
  | 7 => .jump n
  | 8 => .endRun n
  | 9 => .illegal9 n
  | 10 => .illegalAB 0 n
  | 11 => .illegalAB 1 n
  | 12 => .illegalCF 0 n
  | 13 => .illegalCF 1 n
  | 14 => .illegalCF 2 n
  | _ => .illegalCF 3 n

/-- The opcode value of each instruction (R61); an illegal row's value is its fixed bits with its free ones. -/
def Instr.opcode : Instr → Opcode
  | .addByte _ => 0
  | .subByte _ => 1
  | .addPtr _ => 2
  | .subPtr _ => 3
  | .write _ => 4
  | .read _ => 5
  | .jumpIfZero _ => 6
  | .jump _ => 7
  | .endRun _ => 8
  | .illegal9 _ => 9
  | .illegalAB lo _ => 5#3 ++ lo
  | .illegalCF lo _ => 3#2 ++ lo

/-- The operand bits of each instruction, ignored or not (R60). -/
def Instr.operand : Instr → Operand
  | .addByte n => n
  | .subByte n => n
  | .addPtr n => n
  | .subPtr n => n
  | .write z => z
  | .read z => z
  | .jumpIfZero t => t
  | .jump t => t
  | .endRun z => z
  | .illegal9 x => x
  | .illegalAB _ x => x
  | .illegalCF _ x => x

/-- The word for an instruction is `(op << 28) | n` (R88). -/
def encode (i : Instr) : Word := i.opcode ++ i.operand

/-- Whether an instruction is a word of the illegal space (R66). -/
def Instr.isIllegal : Instr → Bool
  | .illegal9 _ => true
  | .illegalAB _ _ => true
  | .illegalCF _ _ => true
  | _ => false

/-! ## The opcode table -/

/-- One row of spec/opcode_table.json: the word belongs to the row when its bits under the mask are the row's. -/
structure OpcodeRow where
  mnemonic : String
  fixed : Word
  mask : Word
deriving DecidableEq, Repr

/-- Whether a word belongs to a row. -/
def OpcodeRow.holds (r : OpcodeRow) (w : Word) : Bool := (w &&& r.mask) == r.fixed

/-- The rows of spec/opcode_table.json in the table's order (R61, R66). -/
def opcodeTable : List OpcodeRow :=
  [⟨"ADD_BYTE", 0x00000000, 0xF0000000⟩,
   ⟨"SUB_BYTE", 0x10000000, 0xF0000000⟩,
   ⟨"ADD_PTR", 0x20000000, 0xF0000000⟩,
   ⟨"SUB_PTR", 0x30000000, 0xF0000000⟩,
   ⟨"WRITE", 0x40000000, 0xF0000000⟩,
   ⟨"READ", 0x50000000, 0xF0000000⟩,
   ⟨"JUMP_IF_ZERO", 0x60000000, 0xF0000000⟩,
   ⟨"JUMP", 0x70000000, 0xF0000000⟩,
   ⟨"END", 0x80000000, 0xF0000000⟩,
   ⟨"(illegal)", 0x90000000, 0xF0000000⟩,
   ⟨"(illegal)", 0xA0000000, 0xE0000000⟩,
   ⟨"(illegal)", 0xC0000000, 0xC0000000⟩]

/-- The place in `opcodeTable` of the row an instruction is the term of. -/
def Instr.row : Instr → Nat
  | .addByte _ => 0
  | .subByte _ => 1
  | .addPtr _ => 2
  | .subPtr _ => 3
  | .write _ => 4
  | .read _ => 5
  | .jumpIfZero _ => 6
  | .jump _ => 7
  | .endRun _ => 8
  | .illegal9 _ => 9
  | .illegalAB _ _ => 10
  | .illegalCF _ _ => 11

/-- The instruction the decoder reads from an instruction of `nbits` bits with the bits `w`; the bits above `nbits`
are 0. Every word has a meaning, so there is always one (R67). -/
def decodeTableWord (nbits w : Nat) : Option Instr :=
  some (decode (BitVec.ofNat 32 (w % 2 ^ nbits)))

/-! ## The image file (R42) -/

/-- The four bytes of a word in an image file, least significant first (R42). -/
def wordBytes (w : Word) : List Byte :=
  [w.extractLsb' 0 8, w.extractLsb' 8 8, w.extractLsb' 16 8, w.extractLsb' 24 8]

/-- The image file of a list of words, word 0 first (R42). -/
def imageBytes : List Word → List Byte
  | [] => []
  | w :: rest => wordBytes w ++ imageBytes rest

/-- Why bytes are no image file: the only reason is a length that is no multiple of 4 (R42). -/
inductive ImageFileError where
  /-- One, two or three bytes are left after the last whole word. -/
  | truncatedWord
deriving DecidableEq, Repr

/-- The words of an image file (R42). -/
def wordsOfBytes : List Byte → Except ImageFileError (List Word)
  | [] => .ok []
  | b0 :: b1 :: b2 :: b3 :: rest =>
    match wordsOfBytes rest with
    | .ok ws => .ok ((b3 ++ b2 ++ b1 ++ b0) :: ws)
    | .error e => .error e
  | _ => .error .truncatedWord

/-- The instructions of an image file: any bytes are decoded or rejected by name. -/
def decodeImage (bytes : List Byte) : Except ImageFileError (List Instr) :=
  match wordsOfBytes bytes with
  | .ok ws => .ok (ws.map decode)
  | .error e => .error e

/-! ## The listing (R73) -/

/-- One hexadecimal digit, in capitals. -/
def hexDigit (d : BitVec 4) : Char :=
  if d.toNat < 10 then Char.ofNat (48 + d.toNat) else Char.ofNat (55 + d.toNat)

/-- A word as eight hexadecimal digits. -/
def hexWord (w : Word) : String :=
  String.ofList ([28, 24, 20, 16, 12, 8, 4, 0].map fun k => hexDigit (w.extractLsb' k 4))

/-- The listing of a word (R73): the mnemonic and, for the counts and the jumps, the operand in decimal; an illegal
word is listed as the word itself. -/
def listing : Instr → String
  | .addByte n => "ADD_BYTE " ++ toString n.toNat
  | .subByte n => "SUB_BYTE " ++ toString n.toNat
  | .addPtr n => "ADD_PTR " ++ toString n.toNat
  | .subPtr n => "SUB_PTR " ++ toString n.toNat
  | .write _ => "WRITE"
  | .read _ => "READ"
  | .jumpIfZero t => "JUMP_IF_ZERO " ++ toString t.toNat
  | .jump t => "JUMP " ++ toString t.toNat
  | .endRun _ => "END"
  | .illegal9 x => ".word 0x" ++ hexWord (encode (.illegal9 x))
  | .illegalAB lo x => ".word 0x" ++ hexWord (encode (.illegalAB lo x))
  | .illegalCF lo x => ".word 0x" ++ hexWord (encode (.illegalCF lo x))

end Sys2Proof
end

