-- ==== Sys2Proof/Machine/Fetch.lean ====
section
/-! DEFINITION. Fetching one word (spec/30_encoding.md R70, spec/20_memory.md R40) and whether the core may step. -/

namespace Sys2Proof.Machine

/-- Only indices below `PROG_LEN` are fetchable (R40, R164). -/
def fetchable (s : State) : Bool := decide (s.ip.toNat < s.progLen.toNat)

/-- The word at `ip` (R70). -/
def fetchWord (c : Config) (s : State) : Option Word := progWord c s.ip.toNat s

/-- The instruction the next fetch gives, if it gives one. -/
def fetchInstr (c : Config) (s : State) : Option Instr :=
  if fetchable s then (fetchWord c s).map decode else none

/-- Whether the core takes a step (R70): it is RUNNING, and it is not held or the host has released it (log entry
23). -/
def coreMayStep (s : State) : Bool :=
  match s.runState with
  | .running =>
    match s.wait with
    | .none => true
    | .input => !s.hostInput.isEmpty
    | .output => s.hostAccepts != 0
  | .idle => false
  | .halted => false
  | .faulted => false

/-- The word of an instruction given by its bits, the bits above `nbits` 0. -/
def wordOfBits (nbits w : Nat) : Word := BitVec.ofNat 32 (w % 2 ^ nbits)

/-- Where `withFetchWord` puts the instruction: at `ip` when `PROG_LEN` makes that index fetchable, else at index 0
(log entry 17). -/
def fetchSlot (s : State) : ProgIndex := if fetchable s then s.ip else 0

/-- The length `withFetchWord` leaves: long enough for the slot. -/
def fetchSlotLen (s : State) : BitVec 28 :=
  if fetchable s then s.progLen else if s.progLen = 0 then 1 else s.progLen

end Sys2Proof.Machine
end

