-- ==== Sys2Proof/Machine/HostPort.lean ====
section
/-! DEFINITION. The host's interactions with the block: the register map (spec/10_state.md R28 to R36), the load port
(spec/20_memory.md R41), the tape readback port (R35), reset, start and the answers to held instructions
(spec/60_exceptions.md R177), and what a finished run shows (R179, R180). -/

namespace Sys2Proof.Machine

/-! ## Field codes -/

/-- The 2-bit code of `STATE` (R27). -/
def RunState.code : RunState → BitVec 2
  | .idle => 0
  | .running => 1
  | .halted => 2
  | .faulted => 3

/-- The 2-bit code of `WAIT` (R32). -/
def Wait.code : Wait → BitVec 2
  | .none => 0
  | .input => 1
  | .output => 2

/-- The 4-bit code of `FAULT_CAUSE` (R29). -/
def FaultCause.code : FaultCause → BitVec 4
  | .none => 0
  | .pointerRange => 1
  | .inputRead => 2
  | .illegalOpcode => 3
  | .fetchRange => 4

/-- The values `FAULT_INFO` may have beside a cause (R30). -/
def FaultCause.infoLegal : FaultCause → BitVec 4 → Bool
  | .none, info => info == 0
  | .pointerRange, info => info == 0 || info == 1
  | .inputRead, info => info == 0 || info == 1
  | .illegalOpcode, info => decide (9 ≤ info.toNat)
  | .fetchRange, info => info == 0

/-! ## Reads -/

/-- `STATUS` (R28): STATE in bits 1:0, WAIT in 3:2, FAULT_CAUSE in 7:4, FAULT_INFO in 11:8, the rest 0. -/
def statusWord (s : State) : Word :=
  0#20 ++ s.faultInfo ++ s.faultCause.code ++ s.wait.code ++ s.runState.code

/-- What the host reads at a register address (R36): CONTROL reads 0 (R33), and so does every other address. -/
def readReg (addr : Nat) (s : State) : Word :=
  match addr with
  | 0 => statusWord s
  | 2 => s.progLen.setWidth 32
  | 3 => s.ip.setWidth 32
  | 4 => s.dp.setWidth 32
  | 5 => s.faultIp.setWidth 32
  | _ => 0

/-- What the tape readback port gives: the cell, while the core is not RUNNING (R35). -/
def readTape (c : Config) (a : Nat) (s : State) : Option Byte :=
  if s.runState = .running then none else memRead c a s

/-! ## Writes -/

/-- Whether the core steps at all: only RUNNING does (R27). -/
def isRunning (s : State) : Bool := s.runState == .running

/-- Whether the block is IDLE, where it may be loaded and started (R27). -/
def isIdle (s : State) : Bool := s.runState == .idle

/-- The mark that START leaves for the observer of the run: what the host has accepted and used up so far (R180; log
entry 19). -/
def markStart (s : State) : State := { s with outputAtStart := s.hostOutput.length, takenAtStart := s.hostTaken }

/-- Start: IDLE to RUNNING, ignored in any other state (spec/70_reset_and_hazards.md R191). A run begins here (R180). -/
def startRun (s : State) : State := if isIdle s then { markStart s with runState := .running } else s

/-- A write of CONTROL (R33): bit 1 resets, else bit 0 starts; the other bits are ignored. -/
def writeControl (v : Word) (s : State) : State :=
  if v.getLsbD 1 then resetBlock s
  else if v.getLsbD 0 then startRun s
  else s

/-- A write of PROG_LEN (R34): in IDLE only, clamped to `PROG_DEPTH`; the written 32-bit value is what is compared
(log entry 13). -/
def writeProgLen (c : Config) (v : Word) (s : State) : State :=
  if isIdle s then { s with progLen := BitVec.ofNat 28 (min v.toNat c.progDepth) } else s

/-- A write of a host register (R36): only CONTROL and PROG_LEN do anything. -/
def writeReg (c : Config) (addr : Nat) (v : Word) (s : State) : State :=
  match addr with
  | 1 => writeControl v s
  | 2 => writeProgLen c v s
  | _ => s

/-- `load(i, w)` (spec/20_memory.md R41): in IDLE and below `PROG_DEPTH` only. -/
def loadWord (c : Config) (i : Nat) (w : Word) (s : State) : State :=
  if isIdle s ∧ i < c.progDepth then { s with imem := setKey i w s.imem } else s

/-! ## One interaction (spec/60_exceptions.md R177) -/

/-- What an interaction changes; one outside its "when allowed" column changes nothing. An answer and an acceptance
complete the held instruction (spec/42_io.md R120, R122; log entry 9). -/
def hostAct (c : Config) (a : HostAction) (s : State) : Result :=
  match a with
  | .powerOn => .next (powerOn s)
  | .writeReg addr v => .next (writeReg c addr v s)
  | .load i w => .next (loadWord c i w s)
  | .answer e => if s.wait = .input then finishRead c e s else .next s
  | .accept => if s.wait = .output then finishWrite c s else .next s
  | .readReg _ => .next s
  | .readTape _ => .next s

/-- What the host gets back from an interaction. -/
inductive HostReply where
  /-- Nothing. -/
  | nothing
  /-- The word of a register. -/
  | word (w : Word)
  /-- The byte of a cell, or the byte an acceptance hands over. -/
  | byte (b : Byte)
deriving DecidableEq, Repr

/-- The reply of a byte that may be missing. -/
def replyByte : Option Byte → HostReply
  | some b => .byte b
  | none => .nothing

/-- What the host gets back (R177). -/
def hostReply (c : Config) (a : HostAction) (s : State) : HostReply :=
  match a with
  | .powerOn => .nothing
  | .writeReg _ _ => .nothing
  | .load _ _ => .nothing
  | .answer _ => .nothing
  | .accept => if s.wait = .output then replyByte (memRead c (cellAddr s) s) else .nothing
  | .readReg addr => .word (readReg addr s)
  | .readTape a => replyByte (readTape c a s)

/-! ## Boot (spec/70_reset_and_hazards.md R192) -/

/-- The host's turns that load words from index `i` on. -/
def loadTurns : Nat → List Word → List Turn
  | _, [] => []
  | i, w :: rest => .host (.load i w) :: loadTurns (i + 1) rest

/-- The host's turns of a boot after reset: load the words, write their number to PROG_LEN, write START (R192). -/
def bootTurns (ws : List Word) : List Turn :=
  loadTurns 0 ws ++
    [.host (.writeReg 2 (BitVec.ofNat 32 ws.length)), .host (.writeReg 1 1)]

/-! ## The end of a run (R179, R180) -/

/-- The bytes the host has accepted since the START of the current or last run, oldest first (R180). -/
def runOutput (s : State) : List Byte := s.hostOutput.drop s.outputAtStart

/-- The number of input events consumed since the START of the current or last run (R180). -/
def runTaken (s : State) : Nat := s.hostTaken - s.takenAtStart

/-- What is observed of a run that has ended (R180). `output` and `inputTaken` are this run's alone. -/
structure Observation where
  runState : RunState
  faultCause : FaultCause
  faultInfo : BitVec 4
  faultIp : ProgIndex
  ip : ProgIndex
  dp : TapeIndex
  tape : Tape
  output : List Byte
  inputTaken : Nat
deriving DecidableEq, Repr

/-- A run has ended when the core is HALTED or FAULTED (R180). -/
def runEnded (s : State) : Bool := s.runState == .halted || s.runState == .faulted

/-- The observation of an ended run; a run that is held or goes on has none (R180). -/
def observe (s : State) : Option Observation :=
  if runEnded s then
    some { runState := s.runState, faultCause := s.faultCause, faultInfo := s.faultInfo, faultIp := s.faultIp,
           ip := s.ip, dp := s.dp, tape := s.tape, output := runOutput s, inputTaken := runTaken s }
  else none

/-- The exit status the host's software gives an ended run: HALTED 0, FAULTED 1 (R179). -/
def exitStatus (s : State) : Option Nat :=
  match s.runState with
  | .halted => some 0
  | .faulted => some 1
  | .idle => none
  | .running => none

end Sys2Proof.Machine
end

