-- ==== Sys2Proof/Machine/Step.lean ====
section
/-! DEFINITION. One step: the agent whose turn it is moves (spec/00_scope.md R5, R15; log entry 6). -/

namespace Sys2Proof.Machine

/-- The dispatch step (spec/30_encoding.md R70): the fetch range check, the fetch, the instruction. -/
def dispatch (s : State) : Host.Outcome State Fault Refusal :=
  if fetchable s then
    match fetchWord Config.hw s with
    | some w => exec (decode w) s
    | none => .fault .noSuchWord
  else .next (raise .fetchRange 0 s)

/-- The core's move: one instruction when it may step; else it is stopped or held and nothing changes (R15, R27;
log entry 7). -/
def coreStep (s : State) : Host.Outcome State Fault Refusal :=
  if coreMayStep s then dispatch s else .next s

/-- One step of the machine: the host's interaction when it is the host's turn, the core's move otherwise. -/
def step (s : State) : Host.Outcome State Fault Refusal :=
  match s.turns with
  | [] => coreStep s
  | .core :: rest => coreStep { s with turns := rest }
  | .host a :: rest => hostAct Config.hw a { s with turns := rest }

/-- The state with the instruction of the bits `w` placed where the next step fetches it: the core's turn, RUNNING,
not held, the word in the fetch slot and a length that covers it. It stands for the load and the start of a program
(log entry 17). -/
def State.withFetchWord (s : State) (nbits w : Nat) : State :=
  { s with ip := fetchSlot s, progLen := fetchSlotLen s, runState := .running, wait := .none, turns := [],
           imem := setKey (fetchSlot s).toNat (wordOfBits nbits w) s.imem }

end Sys2Proof.Machine
end

