-- ==== Sys2Proof/Machine/Translator.lean ====
section
/-! DEFINITION. The source language and its translator, the block's assembler (spec/30_encoding.md R73 to R87). It is a
tool outside the block (spec/00_scope.md R4): no step uses it, and it says how an image is made from source text. -/

namespace Sys2Proof.Machine

/-- The command tokens (R74). End-of-stream is the end of a list of tokens. -/
inductive Token where
  | increment
  | decrement
  | moveRight
  | moveLeft
  | output
  | input
  | loopOpen
  | loopClose
deriving DecidableEq, Repr

/-- The character map (R74; log entry 20). -/
def tokenOf (ch : Char) : Option Token :=
  if ch = '+' then some .increment
  else if ch = '-' then some .decrement
  else if ch = '>' then some .moveRight
  else if ch = '<' then some .moveLeft
  else if ch = '.' then some .output
  else if ch = ',' then some .input
  else if ch = '[' then some .loopOpen
  else if ch = ']' then some .loopClose
  else none

/-- The lexer: the command tokens in source order, every other character skipped (R74, R75). -/
def lex (source : List Char) : List Token := source.filterMap tokenOf

/-- The tokens whose runs fold into one instruction, with the instruction of a run (R77). -/
def Token.foldsTo : Token → Option (Operand → Instr)
  | .increment => some .addByte
  | .decrement => some .subByte
  | .moveRight => some .addPtr
  | .moveLeft => some .subPtr
  | .output => none
  | .input => none
  | .loopOpen => none
  | .loopClose => none

/-- Put one token before a list of groups: it joins the first group when that is a run of the same folding token. -/
def joinRun (t : Token) : List (Token × Nat) → List (Token × Nat)
  | [] => [(t, 1)]
  | (u, k) :: rest =>
    if t = u ∧ t.foldsTo.isSome then (u, k + 1) :: rest else (t, 1) :: (u, k) :: rest

/-- The token stream as groups: a maximal run of a folding token is one group with its length (R77), every other
token is a group of its own (R80). -/
def groupRuns : List Token → List (Token × Nat)
  | [] => []
  | t :: rest => joinRun t (groupRuns rest)

/-- The fatal translation errors (R82, R83, R85). -/
inductive TranslateError where
  /-- UnexpectedTokenError: a loop-close with no open loop (R82). -/
  | unexpectedToken
  /-- UnbalancedBracketsError: end-of-stream with a loop still open (R83). -/
  | unbalancedBrackets
  /-- ImageRangeError: a run that no operand holds, or a program that program memory does not hold (R85). -/
  | imageRange
deriving DecidableEq, Repr

/-- The translator's state: the instructions emitted so far and the indices of the open loops, innermost first. -/
structure Emitted where
  code : List Instr
  pending : List Nat
deriving DecidableEq, Repr

/-- `currentLine`: the index the next emitted instruction will occupy, 0 at the start (R76). -/
def Emitted.currentLine (e : Emitted) : Nat := e.code.length

/-- Emit one instruction; `currentLine` grows by one (R76). -/
def Emitted.emit (e : Emitted) (i : Instr) : Emitted := { e with code := e.code ++ [i] }

/-- A run of `k` folding tokens: one instruction with operand `k` (R77, R79), refused when no operand holds `k`
(R85). -/
def emitRun (make : Operand → Instr) (k : Nat) (e : Emitted) : Except TranslateError Emitted :=
  if k < 2 ^ 28 then .ok (e.emit (make (BitVec.ofNat 28 k))) else .error .imageRange

/-- Loop open: push the index of the JUMP_IF_ZERO and emit it with placeholder 0 (R81). -/
def emitOpen (e : Emitted) : Emitted :=
  { code := e.code ++ [.jumpIfZero 0], pending := e.currentLine :: e.pending }

/-- Loop close: pop the open index `a`; the open instruction's operand becomes the index after the JUMP, and the JUMP
is emitted with operand `a` (R78). Nothing to pop is an error (R82). -/
def emitClose (e : Emitted) : Except TranslateError Emitted :=
  match e.pending with
  | [] => .error .unexpectedToken
  | a :: rest =>
    .ok { code := e.code.set a (.jumpIfZero (BitVec.ofNat 28 (e.currentLine + 1))) ++
            [.jump (BitVec.ofNat 28 a)],
          pending := rest }

/-- Translate one group. -/
def emitGroup (g : Token × Nat) (e : Emitted) : Except TranslateError Emitted :=
  match g.1 with
  | .increment => emitRun .addByte g.2 e
  | .decrement => emitRun .subByte g.2 e
  | .moveRight => emitRun .addPtr g.2 e
  | .moveLeft => emitRun .subPtr g.2 e
  | .output => .ok (e.emit (.write 0))
  | .input => .ok (e.emit (.read 0))
  | .loopOpen => .ok (emitOpen e)
  | .loopClose => emitClose e

/-- Translate the groups in order; the first error ends the translation (log entry 21). -/
def emitGroups : List (Token × Nat) → Emitted → Except TranslateError Emitted
  | [], e => .ok e
  | g :: rest, e =>
    match emitGroup g e with
    | .ok e' => emitGroups rest e'
    | .error err => .error err

/-- End-of-stream: no loop may be open (R83), one END with operand 0 is appended (R84), and the program must fit
program memory (R85). -/
def finishProgram (c : Config) (e : Emitted) : Except TranslateError (List Instr) :=
  match e.pending with
  | _ :: _ => .error .unbalancedBrackets
  | [] =>
    if e.currentLine + 1 ≤ c.progDepth then .ok (e.code ++ [.endRun 0]) else .error .imageRange

/-- The translator on tokens (R76 to R85). -/
def translateTokens (c : Config) (ts : List Token) : Except TranslateError (List Instr) :=
  match emitGroups (groupRuns ts) { code := [], pending := [] } with
  | .ok e => finishProgram c e
  | .error err => .error err

/-- The translator on source text: a program, or an error and no image (R87). -/
def translateSource (c : Config) (source : List Char) : Except TranslateError (List Instr) :=
  translateTokens c (lex source)

/-- The image of a source text: the words the host loads (R88). -/
def assemble (c : Config) (source : List Char) : Except TranslateError (List Word) :=
  match translateSource c source with
  | .ok prog => .ok (prog.map encode)
  | .error err => .error err

end Sys2Proof.Machine
end

