-- ==== Sys2Proof/Safety.lean ====
section
/-! DEFINITION. What counts as a safe state: the invariant that the spec's rules keep, in the terms the statements
use. -/

namespace Sys2Proof.Machine

/-- The machine's invariant: what the rules say holds in every state a run reaches. -/
structure Inv (s : State) : Prop where
  /-- Both memories are in canonical form: every listed cell and word exists (R26, R40). -/
  memory_wf : Memory.wf Config.hw s
  /-- The data pointer is inside the tape (spec/10_state.md R25). -/
  dp_in_tape : s.dp.toNat < Config.hw.tapeLen
  /-- `PROG_LEN <= PROG_DEPTH` (spec/00_scope.md R9, spec/10_state.md R34). -/
  len_le_depth : s.progLen.toNat ≤ Config.hw.progDepth
  /-- `WAIT` is 0 except while RUNNING (R32). -/
  wait_running : s.wait ≠ .none → s.runState = .running
  /-- `WAIT` is 1 only while the instruction at `ip` is a READ that has no event (R32). -/
  wait_input : s.wait = .input → s.hostInput = [] ∧ ∃ z, fetchInstr Config.hw s = some (.read z)
  /-- `WAIT` is 2 only while the instruction at `ip` is a WRITE whose byte is not accepted (R32). -/
  wait_output : s.wait = .output → s.hostAccepts = 0 ∧ ∃ z, fetchInstr Config.hw s = some (.write z)
  /-- The fault record is 0 in every state except FAULTED (R29, R30, R31). -/
  record_clear : s.runState ≠ .faulted → s.faultCause = .none ∧ s.faultInfo = 0 ∧ s.faultIp = 0
  /-- In FAULTED there is a cause, its info is one R30 lists, and `FAULT_IP` equals `ip` (R30, R31). -/
  record_legal : s.runState = .faulted →
    s.faultCause ≠ .none ∧ s.faultCause.infoLegal s.faultInfo = true ∧ s.faultIp = s.ip
  /-- IDLE is the state reset leaves: the pointers and the tape are 0 (R38, R190). -/
  idle_reset : s.runState = .idle → s.ip = 0 ∧ s.dp = 0 ∧ s.tape = []
  /-- What the host has accepted and used up only grows after a START (R48, R180). -/
  run_counts : s.outputAtStart ≤ s.hostOutput.length ∧ s.takenAtStart ≤ s.hostTaken

/-- The core is about to take a step of its own: its turn, RUNNING, not held (spec/30_encoding.md R70). -/
abbrev CoreReady (s : State) : Prop := s.turns = [] ∧ s.runState = .running ∧ s.wait = .none

/-- The program `prog` is what program memory holds below `PROG_LEN`. -/
abbrev HoldsImage (prog : List Instr) (s : State) : Prop :=
  s.progLen.toNat = prog.length ∧
    ∀ i, (h : i < prog.length) → lookupKey i s.imem = some (encode prog[i])

/-- The core's move from `s` has raised a fault in `t`: which of the four it is, with its info, and what raised it
(spec/60_exceptions.md R160 to R164). -/
abbrev CoreFault (s t : State) : Prop :=
  (t.faultCause = .pointerRange ∧ ∃ n, fetchInstr Config.hw s = some (.addPtr n) ∧ t.faultInfo = 0 ∧
    Config.hw.tapeLen ≤ s.dp.toNat + n.toNat) ∨
  (t.faultCause = .pointerRange ∧ ∃ n, fetchInstr Config.hw s = some (.subPtr n) ∧ t.faultInfo = 1 ∧
    s.dp.toNat < n.toNat) ∨
  (t.faultCause = .inputRead ∧ ∃ z rest, fetchInstr Config.hw s = some (.read z) ∧
    (t.faultInfo = 0 ∧ s.hostInput = .error :: rest ∨ t.faultInfo = 1 ∧ s.hostInput = .endOfInput :: rest)) ∨
  (t.faultCause = .illegalOpcode ∧ ∃ i, fetchInstr Config.hw s = some i ∧ t.faultInfo = i.opcode ∧ 9 ≤ i.opcode.toNat) ∨
  (t.faultCause = .fetchRange ∧ t.faultInfo = 0 ∧ s.progLen.toNat ≤ s.ip.toNat)

/-- The host's answer `e` to the held READ at `ip` of `s` has raised InputReadError in `t`, with its info
(spec/42_io.md R122, R123; spec/60_exceptions.md R162). -/
abbrev AnswerFault (e : InputEvent) (s t : State) : Prop :=
  t.faultCause = .inputRead ∧ (∃ z, fetchInstr Config.hw s = some (.read z)) ∧
    (t.faultInfo = 0 ∧ e = .error ∨ t.faultInfo = 1 ∧ e = .endOfInput)

/-- The instructions of a list one after the other, as long as the core stays RUNNING: what a straight line of words
does when it is stepped through (spec/20_memory.md R51). -/
def execAll : List Instr → State → Result
  | [], s => .next s
  | i :: rest, s =>
    match exec i s with
    | .next t => if t.runState = .running then execAll rest t else .next t
    | .fault f => .fault f
    | .refused r => .refused r

/-- How many loops are open after a list of tokens, from `d` open ones on; none when a loop-close meets no open loop
(spec/30_encoding.md R82, R83). -/
def loopDepth : List Token → Nat → Option Nat
  | [], d => some d
  | .loopOpen :: rest, d => loopDepth rest (d + 1)
  | .loopClose :: rest, d =>
    match d with
    | 0 => none
    | k + 1 => loopDepth rest k
  | _ :: rest, d => loopDepth rest d

/-- The next state of an outcome, if there is one. -/
def nextOf (r : Result) : Option State :=
  match r with
  | .next s => some s
  | .fault _ => none
  | .refused _ => none

/-- The fault of an outcome, if there is one. -/
def faultOf (r : Result) : Option Fault :=
  match r with
  | .next _ => none
  | .fault f => some f
  | .refused _ => none

end Sys2Proof.Machine
end

