-- ==== Sys2Proof/Certificates/Slice0/Obligations.lean ====
section
/-! DEFINITION. The statements for the provers. Each docstring names the rules of spec/ it formalises; where a clause is
the model's choice it names the log entry. -/

open Sys2Proof Sys2Proof.Machine

/-! ## Encoding and decoding -/

/-- A few words of R88 and spec/95_test_vectors.md, written out bit by bit, decode to the instructions they stand
for. -/
def Obligations.WordsOfTheSpecDecode : Prop :=
  decode 0b0000_0000000000000000000000000011#32 = .addByte 3 ∧
  decode 0b0001_0000000000000000000000000101#32 = .subByte 5 ∧
  decode 0b0010_0000000000000111010100101111#32 = .addPtr 29999 ∧
  decode 0b0011_0000000000000000000000000110#32 = .subPtr 6 ∧
  decode 0b0100_0000000000000000000000000000#32 = .write 0 ∧
  decode 0b0101_0000000000000000000000000000#32 = .read 0 ∧
  decode 0b0110_0000000000000000000000000111#32 = .jumpIfZero 7 ∧
  decode 0b0111_0000000000000000000000000001#32 = .jump 1 ∧
  decode 0b1000_0000000000000000000000000000#32 = .endRun 0 ∧
  decode 0b1001_0000000000000000000000000000#32 = .illegal9 0 ∧
  decode 0b1111_0001001000110100010101100111#32 = .illegalCF 3 0x1234567

/-- R88: the word for an instruction is `(op << 28) | n` with `n < 2^28`, in the nine forms. -/
def Obligations.WordIsOpcodeShiftedOrOperand : Prop :=
  (∀ i : Instr, encode i = (i.opcode.setWidth 32 <<< 28 ||| i.operand.setWidth 32) ∧ i.operand.toNat < 2 ^ 28) ∧
  (∀ n : Operand,
    (encode (.addByte n)).toNat = 0x00000000 + n.toNat ∧
    (encode (.subByte n)).toNat = 0x10000000 + n.toNat ∧
    (encode (.addPtr n)).toNat = 0x20000000 + n.toNat ∧
    (encode (.subPtr n)).toNat = 0x30000000 + n.toNat ∧
    (encode (.jumpIfZero n)).toNat = 0x60000000 + n.toNat ∧
    (encode (.jump n)).toNat = 0x70000000 + n.toNat) ∧
  encode (.write 0) = 0x40000000 ∧ encode (.read 0) = 0x50000000 ∧ encode (.endRun 0) = 0x80000000

/-- R69: `decode` is total on 32-bit words: with `op` the word's top four bits and `n` its other 28, opcodes 0 to 8 are
the nine instructions with operand `n`, and every other opcode is an illegal word of that opcode. -/
def Obligations.DecodeReadsTheTwoFields : Prop :=
  ∀ w : Word, ∃ (op : Nat) (n : Operand), op = w.toNat / 2 ^ 28 ∧ n.toNat = w.toNat % 2 ^ 28 ∧
    (op = 0 → decode w = .addByte n) ∧ (op = 1 → decode w = .subByte n) ∧ (op = 2 → decode w = .addPtr n) ∧
    (op = 3 → decode w = .subPtr n) ∧ (op = 4 → decode w = .write n) ∧ (op = 5 → decode w = .read n) ∧
    (op = 6 → decode w = .jumpIfZero n) ∧ (op = 7 → decode w = .jump n) ∧ (op = 8 → decode w = .endRun n) ∧
    (9 ≤ op → (decode w).isIllegal = true ∧ (decode w).opcode.toNat = op)

/-- Decoding an encoded instruction gives it back, for every instruction with every operand and every ignored bit
(R69, R88). -/
def Obligations.DecodeOfEncode : Prop :=
  ∀ i : Instr, decode (encode i) = i

/-- Encoding a decoded word gives it back, so no two words decode to one term. That is the model's choice and no rule of
the spec (log entry 15): the bits the hardware ignores in WRITE, READ, END and the illegal words (R64, R66) are kept as
fields. -/
def Obligations.EncodeOfDecode : Prop :=
  ∀ w : Word, encode (decode w) = w

/-- The table's rows (R61, R66) part the words: every word belongs to the row of the instruction it decodes to and to
no other row. -/
def Obligations.EveryWordHasExactlyItsRow : Prop :=
  ∀ (w : Word) (k : Nat) (r : OpcodeRow), opcodeTable[k]? = some r →
    (r.holds w = true ↔ k = (decode w).row)

/-- R64: the operand bits of WRITE, READ and END are ignored: two words of the same opcode 4, 5 or 8 do the same. -/
def Obligations.UnusedOperandIsIgnored : Prop :=
  ∀ (w w' : Word) (s : State), opcodeField w = opcodeField w' →
    (opcodeField w = 4 ∨ opcodeField w = 5 ∨ opcodeField w = 8) →
    exec (decode w) s = exec (decode w') s

/-- R42: an image file holds each word as four bytes, least significant byte first, word 0 first, so its length is four
times the number of words; it gives its words back. Bytes that are no whole number of words are rejected, which is the
model's choice. -/
def Obligations.ImageFileRoundTrip : Prop :=
  (∀ (w : Word) (ws : List Word), ∃ b0 b1 b2 b3 : Byte, imageBytes (w :: ws) = [b0, b1, b2, b3] ++ imageBytes ws ∧
    w.toNat = b0.toNat + 2 ^ 8 * b1.toNat + 2 ^ 16 * b2.toNat + 2 ^ 24 * b3.toNat) ∧
  (∀ ws : List Word, wordsOfBytes (imageBytes ws) = .ok ws ∧ (imageBytes ws).length = 4 * ws.length) ∧
  (∀ (bs : List Byte) (ws : List Word), wordsOfBytes bs = .ok ws → imageBytes ws = bs) ∧
  (∀ bs : List Byte, bs.length % 4 ≠ 0 → wordsOfBytes bs = .error .truncatedWord)

/-! ## Cell arithmetic -/

/-- R100: the word of opcode 0 is ADD_BYTE n, which adds `n` to the cell at the data pointer modulo 256 and advances; every other cell and all other
state are as before. It completes from every state whose data pointer is inside the tape. -/
def Obligations.AddByteAddsModulo256 : Prop :=
  (∀ n : Operand, decode (0#4 ++ n) = .addByte n) ∧
  ∀ (n : Operand) (s : State) (v : Byte), memRead Config.hw (cellAddr s) s = some v →
    ∃ (t : State) (w : Byte), exec (.addByte n) s = .next t ∧
      memRead Config.hw (cellAddr s) t = some w ∧ w.toNat = (v.toNat + n.toNat) % 256 ∧
      (∀ a, a ≠ cellAddr s → memRead Config.hw a t = memRead Config.hw a s) ∧
      t = { s with tape := t.tape, ip := s.ip + 1 }

/-- R101: the word of opcode 1 is SUB_BYTE n, which subtracts `n` from the cell at the data pointer modulo 256 and advances; every other cell and all
other state are as before. -/
def Obligations.SubByteSubtractsModulo256 : Prop :=
  (∀ n : Operand, decode (1#4 ++ n) = .subByte n) ∧
  ∀ (n : Operand) (s : State) (v : Byte), memRead Config.hw (cellAddr s) s = some v →
    ∃ (t : State) (w : Byte), exec (.subByte n) s = .next t ∧
      memRead Config.hw (cellAddr s) t = some w ∧ (w.toNat : Int) = ((v.toNat : Int) - n.toNat) % 256 ∧
      (∀ a, a ≠ cellAddr s → memRead Config.hw a t = memRead Config.hw a s) ∧
      t = { s with tape := t.tape, ip := s.ip + 1 }

/-- R102's derived laws: ADD_BYTE k does to the tape what k times ADD_BYTE 1 does, and likewise SUB_BYTE; ADD_BYTE a
then ADD_BYTE b does what ADD_BYTE ((a + b) mod 256) does; ADD_BYTE a then SUB_BYTE a restores every cell. -/
def Obligations.CellArithmeticLaws : Prop :=
  ∀ s : State, s.runState = .running → s.dp.toNat < Config.hw.tapeLen →
    (∀ k : Operand, ∃ t u, exec (.addByte k) s = .next t ∧
      execAll (List.replicate k.toNat (.addByte 1)) s = .next u ∧
      ∀ a, memRead Config.hw a t = memRead Config.hw a u) ∧
    (∀ k : Operand, ∃ t u, exec (.subByte k) s = .next t ∧
      execAll (List.replicate k.toNat (.subByte 1)) s = .next u ∧
      ∀ a, memRead Config.hw a t = memRead Config.hw a u) ∧
    (∀ a b : Operand, ∃ t u, execAll [.addByte a, .addByte b] s = .next t ∧
      exec (.addByte (BitVec.ofNat 28 ((a.toNat + b.toNat) % 256))) s = .next u ∧
      ∀ x, memRead Config.hw x t = memRead Config.hw x u) ∧
    (∀ a : Operand, ∃ t, execAll [.addByte a, .subByte a] s = .next t ∧
      ∀ x, memRead Config.hw x t = memRead Config.hw x s)

/-! ## Pointer arithmetic -/

/-- R111: the word of opcode 2 is ADD_PTR n, which moves the data pointer right by `n` and advances when the exact sum is inside the tape; else it
raises PointerRangeError with info 0 and changes nothing else. -/
def Obligations.AddPtrMovesOrFaults : Prop :=
  (∀ n : Operand, decode (2#4 ++ n) = .addPtr n) ∧
  ∀ (n : Operand) (s : State),
    (s.dp.toNat + n.toNat < Config.hw.tapeLen →
      exec (.addPtr n) s = .next { s with dp := BitVec.ofNat 15 (s.dp.toNat + n.toNat), ip := s.ip + 1 }) ∧
    (Config.hw.tapeLen ≤ s.dp.toNat + n.toNat →
      exec (.addPtr n) s = .next { s with runState := .faulted, faultCause := .pointerRange, faultInfo := 0, faultIp := s.ip })

/-- R112: the word of opcode 3 is SUB_PTR n, which moves the data pointer left by `n` and advances when `n <= dp`; else it raises PointerRangeError
with info 1 and changes nothing else. The data pointer is inside the tape, as the invariant says. -/
def Obligations.SubPtrMovesOrFaults : Prop :=
  (∀ n : Operand, decode (3#4 ++ n) = .subPtr n) ∧
  ∀ (n : Operand) (s : State), s.dp.toNat < Config.hw.tapeLen →
    (n.toNat ≤ s.dp.toNat →
      exec (.subPtr n) s = .next { s with dp := BitVec.ofNat 15 (s.dp.toNat - n.toNat), ip := s.ip + 1 }) ∧
    (s.dp.toNat < n.toNat →
      exec (.subPtr n) s = .next { s with runState := .faulted, faultCause := .pointerRange, faultInfo := 1, faultIp := s.ip })

/-- R110, R161: the pointer arithmetic unit takes `dp + n` for ADD_PTR and `dp - n` for SUB_PTR as an exact integer,
checks it against both bounds, the upper one first, and writes it only when it is inside; so it does for every allowed
configuration. -/
def Obligations.PointerUnitChecksBothBounds : Prop :=
  (∀ (n : Operand) (s : State),
    exec (.addPtr n) s = .next (movePtr Config.hw ((s.dp.toNat : Int) + n.toNat) s) ∧
    exec (.subPtr n) s = .next (movePtr Config.hw ((s.dp.toNat : Int) - n.toNat) s)) ∧
  ∀ (c : Config) (x : Int) (s : State), c.wf →
    (x ≥ c.tapeLen → movePtr c x s = raise .pointerRange 0 s ∧ (movePtr c x s).dp = s.dp) ∧
    (x < 0 → movePtr c x s = raise .pointerRange 1 s ∧ (movePtr c x s).dp = s.dp) ∧
    (0 ≤ x → x < c.tapeLen →
      ((movePtr c x s).dp.toNat : Int) = x ∧ movePtr c x s = { s with dp := (movePtr c x s).dp, ip := s.ip + 1 })

/-- R113: a folded pointer move faults exactly when the unit moves it replaces fault, and when neither faults both end
at the same data pointer; the folded instruction faults before moving at all. -/
def Obligations.FoldedPointerMoveFaultsAlike : Prop :=
  ∀ (k : Operand) (s : State) (unit folded : Instr), s.runState = .running → s.dp.toNat < Config.hw.tapeLen →
    (unit = .addPtr 1 ∧ folded = .addPtr k ∨ unit = .subPtr 1 ∧ folded = .subPtr k) →
    ∃ t u, exec folded s = .next t ∧ execAll (List.replicate k.toNat unit) s = .next u ∧
      (t.runState = .faulted ↔ u.runState = .faulted) ∧
      (t.runState = .faulted → t.dp = s.dp) ∧
      (t.runState ≠ .faulted → t.dp = u.dp)

/-! ## Stream I/O -/

/-- R121: the word of opcode 4 is WRITE, which offers the cell at the data pointer. When the host accepts, the byte
joins its output and `ip` advances, and the tape, the data pointer and the earlier output are as before; while it does
not, the core is held with `WAIT` = 2 and nothing else changes. How the host's acceptance is held in the state is log
entry 5, that a hold is a next state log entry 7, that an accepted WRITE completes in one step with no `WAIT` of 2 in
between log entry 8. -/
def Obligations.WriteEmitsTheCell : Prop :=
  (∀ z : Operand, decode (4#4 ++ z) = .write z) ∧
  ∀ (z : Operand) (s : State) (v : Byte), memRead Config.hw (cellAddr s) s = some v →
    (∀ k, s.hostAccepts = k + 1 → exec (.write z) s =
      .next { s with hostOutput := s.hostOutput ++ [v], hostAccepts := k, wait := .none, ip := s.ip + 1 }) ∧
    (s.hostAccepts = 0 → exec (.write z) s = .next { s with wait := .output })

/-- R162 and, for this hardware's `EOF_POLICY`, R123: the word of opcode 5 is READ. While the host has no event ready
the core is held with `WAIT` = 1 and nothing else changes (log entry 7); else READ consumes exactly one event. A byte
replaces the cell at the data pointer and `ip` advances, `Error` raises InputReadError with info 0 and end of input
raises it with info 1; the fault paths leave the cell, `dp` and `ip` unchanged. That the host's events stand in the
state is log entry 5, that a READ with a ready event completes in one step with no `WAIT` of 1 in between log entry 8, that
`WAIT` is 0 in FAULTED log entry 22. -/
def Obligations.ReadTakesOneEvent : Prop :=
  (∀ z : Operand, decode (5#4 ++ z) = .read z) ∧
  (∀ (z : Operand) (s : State), s.hostInput = [] → exec (.read z) s = .next { s with wait := .input }) ∧
  ∀ (z : Operand) (s : State) (e : InputEvent) (rest : List InputEvent), s.dp.toNat < Config.hw.tapeLen →
    s.hostInput = e :: rest →
    (∀ b, e = .byte b → ∃ t, exec (.read z) s = .next t ∧ memRead Config.hw (cellAddr s) t = some b ∧
      (∀ a, a ≠ cellAddr s → memRead Config.hw a t = memRead Config.hw a s) ∧
      t = { s with tape := t.tape, ip := s.ip + 1, hostInput := rest, hostTaken := s.hostTaken + 1, wait := .none }) ∧
    (e = .error → exec (.read z) s = .next { s with hostInput := rest, hostTaken := s.hostTaken + 1, wait := .none, runState := .faulted, faultCause := .inputRead, faultInfo := 0, faultIp := s.ip }) ∧
    (e = .endOfInput → exec (.read z) s = .next { s with hostInput := rest, hostTaken := s.hostTaken + 1, wait := .none, runState := .faulted, faultCause := .inputRead, faultInfo := 1, faultIp := s.ip })

/-- R124 and the end-of-input arm of R123: the four deterministic end-of-input behaviours, for every configuration; this
hardware takes FAULT. That the answer sets `WAIT` to 0 is R122; that it is 0 beside FAULTED is log entry 22, that the
events used up are counted in the state log entry 5. -/
def Obligations.EndOfInputPolicies : Prop :=
  Config.hw.eofPolicy = .fault ∧
  ∀ (c : Config) (s : State), s.dp.toNat < c.tapeLen →
    (c.eofPolicy = .fault → finishRead c .endOfInput s = .next { s with hostTaken := s.hostTaken + 1, wait := .none, runState := .faulted, faultCause := .inputRead, faultInfo := 1, faultIp := s.ip }) ∧
    (c.eofPolicy = .unchanged → finishRead c .endOfInput s = .next { s with hostTaken := s.hostTaken + 1, wait := .none, ip := s.ip + 1 }) ∧
    (∀ b : Byte, (c.eofPolicy = .zero ∧ b = 0 ∨ c.eofPolicy = .allOnes ∧ b = 0xFF) →
      ∃ t, finishRead c .endOfInput s = .next t ∧ memRead c (cellAddr s) t = some b ∧
        (∀ a, a ≠ cellAddr s → memRead c a t = memRead c a s) ∧
        t = { s with tape := t.tape, ip := s.ip + 1, hostTaken := s.hostTaken + 1, wait := .none })

/-- R122: an answer to a held READ sets `WAIT` to 0 and completes it: it does what the READ at `ip` does with that
event. -/
def Obligations.AnswerCompletesTheRead : Prop :=
  ∀ (e : InputEvent) (s : State), Inv s → s.wait = .input →
    ∃ t, hostAct Config.hw (.answer e) s = .next t ∧ t.wait = .none ∧ t.hostTaken = s.hostTaken + 1 ∧
      dispatch { s with wait := .none, hostInput := [e] } = .next t

/-- R120: an acceptance of a held WRITE appends the byte to the host's output, sets `WAIT` to 0 and completes the
WRITE: it does what the WRITE at `ip` does when its byte is taken. -/
def Obligations.AcceptCompletesTheWrite : Prop :=
  ∀ s : State, Inv s → s.wait = .output →
    ∃ t v, memRead Config.hw (cellAddr s) s = some v ∧ hostAct Config.hw .accept s = .next t ∧
      hostReply Config.hw .accept s = .byte v ∧
      t = { s with hostOutput := s.hostOutput ++ [v], wait := .none, ip := s.ip + 1 } ∧
      dispatch { s with wait := .none, hostAccepts := 1 } = .next t

/-- A held core takes no step of its own until the host releases it: nothing changes (R15, R195; log entry 7). -/
def Obligations.HeldCoreDoesNothing : Prop :=
  ∀ s : State, s.turns = [] →
    (s.wait = .input ∧ s.hostInput = [] ∨ s.wait = .output ∧ s.hostAccepts = 0) → step s = .next s

/-! ## Control transfer and halt -/

/-- R130: the word of opcode 6 is JUMP_IF_ZERO t, which goes to `t` when the cell at the data pointer is 0 and falls through on 1 to 255; nothing
else changes. A target at or past PROG_LEN is taken, and the next step raises FetchRangeError with `FAULT_IP` = t. -/
def Obligations.JumpIfZeroTestsTheCell : Prop :=
  (∀ u : Operand, decode (6#4 ++ u) = .jumpIfZero u) ∧
  ∀ (u : Operand) (s : State) (v : Byte), memRead Config.hw (cellAddr s) s = some v →
    (v = 0 → exec (.jumpIfZero u) s = .next { s with ip := u }) ∧
    (v ≠ 0 → exec (.jumpIfZero u) s = .next { s with ip := s.ip + 1 }) ∧
    (v = 0 → CoreReady s → s.progLen.toNat ≤ u.toNat → ∃ t, exec (.jumpIfZero u) s = .next t ∧
      step t = .next { t with runState := .faulted, faultCause := .fetchRange, faultInfo := 0, faultIp := u })

/-- R131: the word of opcode 7 is JUMP t, which sets `ip` to `t` exactly, from every state, and changes nothing else. A target at or past PROG_LEN is
taken, and the next step raises FetchRangeError. -/
def Obligations.JumpSetsTheInstructionPointer : Prop :=
  (∀ u : Operand, decode (7#4 ++ u) = .jump u) ∧
  ∀ (u : Operand) (s : State),
    exec (.jump u) s = .next { s with ip := u } ∧
    (CoreReady s → s.progLen.toNat ≤ u.toNat → ∃ t, exec (.jump u) s = .next t ∧
      step t = .next { t with runState := .faulted, faultCause := .fetchRange, faultInfo := 0, faultIp := u })

/-- R140: the word of opcode 8 is END, which enters HALTED, from every state, with `ip`, `dp`, the tape and the output
unchanged; the core then takes no step and the exit status is 0. -/
def Obligations.EndHalts : Prop :=
  (∀ z : Operand, decode (8#4 ++ z) = .endRun z) ∧
  ∀ (z : Operand) (s : State), ∃ t, exec (.endRun z) s = .next t ∧ t = { s with runState := .halted } ∧
    coreStep t = .next t ∧ exitStatus t = some 0

/-- In a well-formed image (R72) every JUMP_IF_ZERO at `a` has its JUMP at a later index `b`, and stepping does what
R133 says: from `a` to `b + 1` on a zero cell and to `a + 1` otherwise, and from `b` back to `a`. -/
def Obligations.LoopPairsReturnToTheirTest : Prop :=
  ∀ (prog : List Instr) (a : Nat) (u : Operand), wellFormedImage prog = true → prog.length < 2 ^ 28 →
    prog[a]? = some (.jumpIfZero u) →
    ∃ b, a < b ∧ prog[b]? = some (.jump (BitVec.ofNat 28 a)) ∧
      ∀ s : State, HoldsImage prog s → CoreReady s → s.dp.toNat < Config.hw.tapeLen →
        (s.ip.toNat = a → s.tape.get (cellAddr s) = 0 → step s = .next { s with ip := BitVec.ofNat 28 (b + 1) }) ∧
        (s.ip.toNat = a → s.tape.get (cellAddr s) ≠ 0 → step s = .next { s with ip := BitVec.ofNat 28 (a + 1) }) ∧
        (s.ip.toNat = b → step s = .next { s with ip := BitVec.ofNat 28 a })

/-! ## Faults -/

/-- R66 and R163: a word with opcode 9 to 15 raises IllegalOpcode with the opcode as the info, whatever the operand
bits, from every state; each of the three illegal rows completes so. -/
def Obligations.IllegalOpcodeIsRaised : Prop :=
  (∀ (w : Word) (s : State), 9 ≤ (opcodeField w).toNat →
    exec (decode w) s = .next { s with runState := .faulted, faultCause := .illegalOpcode, faultInfo := opcodeField w, faultIp := s.ip }) ∧
  (∀ (x : Operand) (s : State),
    exec (.illegal9 x) s = .next { s with runState := .faulted, faultCause := .illegalOpcode, faultInfo := 9, faultIp := s.ip }) ∧
  (∀ (lo : BitVec 1) (x : Operand) (s : State), ∃ op : BitVec 4, op.toNat = 10 + lo.toNat ∧
    exec (.illegalAB lo x) s = .next { s with runState := .faulted, faultCause := .illegalOpcode, faultInfo := op, faultIp := s.ip }) ∧
  (∀ (lo : BitVec 2) (x : Operand) (s : State), ∃ op : BitVec 4, op.toNat = 12 + lo.toNat ∧
    exec (.illegalCF lo x) s = .next { s with runState := .faulted, faultCause := .illegalOpcode, faultInfo := op, faultIp := s.ip })

/-- R164: a fetch at `ip >= PROG_LEN` raises FetchRangeError, whatever program memory holds. -/
def Obligations.FetchPastTheProgramFaults : Prop :=
  ∀ s : State, CoreReady s → s.progLen.toNat ≤ s.ip.toNat →
    step s = .next { s with runState := .faulted, faultCause := .fetchRange, faultInfo := 0, faultIp := s.ip }

/-- R165: fault entry writes the record and enters FAULTED, changes nothing else, and the core takes no further
step. -/
def Obligations.FaultEntryStopsTheCore : Prop :=
  ∀ (cause : FaultCause) (info : BitVec 4) (s : State), ∃ t, raise cause info s = t ∧
    t = { s with runState := .faulted, faultCause := cause, faultInfo := info, faultIp := s.ip } ∧
    coreStep t = .next t ∧
    (statusWord t).extractLsb' 0 2 = 3#2 ∧ (statusWord t).extractLsb' 4 4 = cause.code ∧
    (statusWord t).extractLsb' 8 4 = info

/-- R160: the four faults with their codes, by what raises them, with their info and their `FAULT_IP`; nothing else
raises one. The second clause is about a ready core whose data pointer is inside the tape. The third is about every step
from a state that meets the invariant, whosever turn it is: a step enters FAULTED only by the core's move while it is
RUNNING and not held, or by the host's answer to a held READ, which is R122's own path to InputReadError. That the host's
events stand in the state is log entry 5, that an answer completes the READ in its own step log entry 9. -/
def Obligations.FaultsAreExactlyTheFour : Prop :=
  [FaultCause.pointerRange, .inputRead, .illegalOpcode, .fetchRange].map FaultCause.code = [1, 2, 3, 4] ∧
  (∀ s t : State, CoreReady s → s.dp.toNat < Config.hw.tapeLen → step s = .next t → t.runState = .faulted →
    t.faultIp = s.ip ∧ CoreFault s t) ∧
  (∀ s t : State, Inv s → s.runState ≠ .faulted → step s = .next t → t.runState = .faulted →
    t.faultIp = s.ip ∧ s.runState = .running ∧
    ((s.wait = .none ∧ (s.turns = [] ∨ ∃ rest, s.turns = .core :: rest) ∧ CoreFault s t) ∨
      (s.wait = .input ∧ ∃ e rest, s.turns = .host (.answer e) :: rest ∧ AnswerFault e s t)))

/-- R166: a fault is precise: the state in FAULTED is the state before the instruction plus the fault record, but for
the input event a faulting READ has consumed. The first clause is about a ready core; the second is about every step from
a state that meets the invariant, the host's answer to a held READ among them, which also ends the hold: `WAIT` is 0 in
FAULTED (R32, log entry 22). That the event and the count stand in the state is log entry 5. -/
def Obligations.FaultsArePrecise : Prop :=
  (∀ s t : State, CoreReady s → step s = .next t → t.runState = .faulted →
    t = { s with runState := .faulted, faultCause := t.faultCause, faultInfo := t.faultInfo, faultIp := s.ip, hostInput := t.hostInput, hostTaken := t.hostTaken } ∧
    (t.faultCause ≠ .inputRead → t.hostInput = s.hostInput ∧ t.hostTaken = s.hostTaken)) ∧
  (∀ s t : State, Inv s → s.runState ≠ .faulted → step s = .next t → t.runState = .faulted →
    t = { s with runState := .faulted, wait := .none, faultCause := t.faultCause, faultInfo := t.faultInfo, faultIp := s.ip, hostInput := t.hostInput, hostTaken := t.hostTaken, turns := s.turns.tail } ∧
    (t.faultCause ≠ .inputRead → t.hostInput = s.hostInput ∧ t.hostTaken = s.hostTaken) ∧
    (t.faultCause = .inputRead → t.hostTaken = s.hostTaken + 1) ∧
    (s.wait = .none → t.faultCause = .inputRead → ∃ e, s.hostInput = e :: t.hostInput) ∧
    (s.wait ≠ .none → t.hostInput = s.hostInput))

/-! ## Frames -/

/-- The forms that store: ADD_BYTE and SUB_BYTE change the cell at `cellAddr s` and `ip` only; READ changes that cell,
`ip`, `WAIT` and the host's input, and on a fault the fault record. Every other cell reads as before (R43, R45). -/
def Obligations.FrameOfStoringForms : Prop :=
  ∀ (i : Instr) (s t : State), exec i s = .next t →
    ((∃ n, i = .addByte n ∨ i = .subByte n) →
      (∀ a, a ≠ cellAddr s → memRead Config.hw a t = memRead Config.hw a s) ∧
      t = { s with tape := t.tape, ip := t.ip }) ∧
    ((∃ z, i = .read z) →
      (∀ a, a ≠ cellAddr s → memRead Config.hw a t = memRead Config.hw a s) ∧
      t = { s with tape := t.tape, ip := t.ip, wait := t.wait, hostInput := t.hostInput, hostTaken := t.hostTaken, runState := t.runState, faultCause := t.faultCause, faultInfo := t.faultInfo, faultIp := t.faultIp } ∧
      (t.runState ≠ .faulted →
        t.runState = s.runState ∧ t.faultCause = s.faultCause ∧ t.faultInfo = s.faultInfo ∧ t.faultIp = s.faultIp))

/-- The forms that store nothing: every cell reads as before. WRITE changes `ip`, `WAIT` and the host's output side
only; the jumps `ip` only; END the run state only; the illegal words the fault record only; ADD_PTR and SUB_PTR change
`dp` and `ip`, or the fault record (R43, R22). -/
def Obligations.FrameOfFormsThatStoreNothing : Prop :=
  ∀ (i : Instr) (s t : State), exec i s = .next t →
    (∀ n, i ≠ .addByte n ∧ i ≠ .subByte n ∧ i ≠ .read n) →
    (∀ a, memRead Config.hw a t = memRead Config.hw a s) ∧
    ((∃ z, i = .write z) →
      t = { s with ip := t.ip, wait := t.wait, hostOutput := t.hostOutput, hostAccepts := t.hostAccepts }) ∧
    ((∃ u, i = .jumpIfZero u ∨ i = .jump u) → t = { s with ip := t.ip }) ∧
    ((∃ z, i = .endRun z) → t = { s with runState := t.runState }) ∧
    (i.isIllegal = true →
      t = { s with runState := t.runState, faultCause := t.faultCause, faultInfo := t.faultInfo, faultIp := t.faultIp }) ∧
    ((∃ n, i = .addPtr n ∨ i = .subPtr n) →
      t = { s with dp := t.dp, ip := t.ip } ∨
      t = { s with runState := t.runState, faultCause := t.faultCause, faultInfo := t.faultInfo, faultIp := t.faultIp })

/-- No instruction writes program memory or PROG_LEN, and none reads them: with other contents the same instruction
does the same (R37, R55). Only ADD_PTR and SUB_PTR change the data pointer (R25). -/
def Obligations.InstructionsNeitherReadNorWriteTheProgram : Prop :=
  ∀ (i : Instr) (s t : State), exec i s = .next t →
    t.imem = s.imem ∧ t.imemDraw = s.imemDraw ∧ t.progLen = s.progLen ∧ t.turns = s.turns ∧
    (∀ m len, exec i { s with imem := m, progLen := len } = .next { t with imem := m, progLen := len }) ∧
    ((∀ n, i ≠ .addPtr n ∧ i ≠ .subPtr n) → t.dp = s.dp)

/-! ## The step -/

/-- A step of the core runs the decoded instruction: in the core's turn, RUNNING and not held, with `ip` below
PROG_LEN, the step is the meaning of the instruction the word at `ip` decodes to (R70). `dispatch` is the model's name
for the fetch and the meaning; a step whose turn list begins with the core's turn drops that turn first (log entry
6). -/
def Obligations.StepRunsTheDecodedInstruction : Prop :=
  (∀ (s : State) (w : Word), CoreReady s → s.ip.toNat < s.progLen.toNat → fetchWord Config.hw s = some w →
    step s = exec (decode w) s) ∧
  (∀ (s : State) (i : Instr), CoreReady s → s.ip.toNat < s.progLen.toNat →
    lookupKey s.ip.toNat s.imem = some (encode i) → step s = exec i s) ∧
  (∀ (s : State) (rest : List Turn), s.turns = .core :: rest → step s = coreStep { s with turns := rest })

/-- R71 and R24: every instruction but a taken JUMP_IF_ZERO, JUMP and END ends with `ip + 1`, as a number, without a
wrap; a taken jump ends with its target, END and a fault leave `ip`, and a hold leaves it while it lasts. -/
def Obligations.SequencingOfTheInstructionPointer : Prop :=
  ∀ (s t : State) (i : Instr), CoreReady s → fetchInstr Config.hw s = some i → step s = .next t →
    (t.runState = .faulted ∨ t.wait ≠ .none → t.ip = s.ip) ∧
    (i.isEnd = true → t.ip = s.ip) ∧
    (∀ u, i = .jump u → t.ip = u) ∧
    (∀ u, i = .jumpIfZero u → s.tape.get (cellAddr s) = 0 → t.ip = u) ∧
    (t.runState = .running → t.wait = .none → (∀ u, i ≠ .jump u) →
      (∀ u, i = .jumpIfZero u → s.tape.get (cellAddr s) ≠ 0) → t.ip.toNat = s.ip.toNat + 1)

/-- The state after reset meets the invariant, whatever the host's side holds (log entry 5: the coming events, the
readiness, the accepted output and the count of events; log entry 19: the marks of the last START, which never pass what
they mark) and whatever turns are planned (log entry 6). -/
def Obligations.ResetStateMeetsInv : Prop :=
  ∀ (events : List InputEvent) (accepts : Nat) (output : List Byte) (taken outputMark takenMark : Nat)
    (turns : List Turn), outputMark ≤ output.length → takenMark ≤ taken →
    Inv { State.reset with hostInput := events, hostAccepts := accepts, hostOutput := output, hostTaken := taken, outputAtStart := outputMark, takenAtStart := takenMark, turns := turns }

/-- Every step keeps the invariant, the core's and the host's, from every state that meets it (R25, R29 to R32, R34,
R38). Its last clause is about the marks of log entry 19. -/
def Obligations.EveryStepKeepsInv : Prop :=
  ∀ s t : State, Inv s → step s = .next t → Inv t

/-- From every state that meets the invariant a step has a next state: no step stops. Every cell an instruction uses
exists, since `dp` is inside the tape (R25, R114, R26), and every word that is fetched exists, since PROG_LEN is at most
PROG_DEPTH (R9, R34, R40). That a hold and a fault are next states are log entries 7 and 10; where the model stops
otherwise are log entries 11 and 12. -/
def Obligations.NoStepStopsUnderInv : Prop :=
  ∀ s : State, Inv s → ∃ t, step s = .next t

/-- R72: on a well-formed image every step of a run keeps `ip` inside the program and the image in place, and raises
neither IllegalOpcode nor FetchRangeError: the core's moves, the steps in which the host's answer or acceptance completes
a held READ or WRITE (R122, R120; log entry 9), and every other turn of the host but a power-on, after which program memory
is unspecified. Of the invariant only what it says of a hold (R32) is needed, and only in a turn of the host: the
instruction at `ip` is the READ or the WRITE that is waited for. -/
def Obligations.WellFormedImageRaisesNoDecodeFault : Prop :=
  ∀ (prog : List Instr) (s t : State), wellFormedImage prog = true → prog.length < 2 ^ 28 → HoldsImage prog s →
    s.ip.toNat < prog.length → s.runState = .running →
    (∀ a rest, s.turns = .host a :: rest → a ≠ .powerOn ∧
      (s.wait = .input → ∃ z, fetchInstr Config.hw s = some (.read z)) ∧
      (s.wait = .output → ∃ z, fetchInstr Config.hw s = some (.write z))) → step s = .next t →
    HoldsImage prog t ∧ t.ip.toNat < prog.length ∧
    (t.runState = .faulted → t.faultCause = .pointerRange ∨ t.faultCause = .inputRead)

/-- R48, R52 and R169: a step hands over at most one byte, the cell at the data pointer, after the bytes already
accepted, and withdraws none. -/
def Obligations.OutputOnlyGrows : Prop :=
  ∀ s t : State, step s = .next t →
    t.hostOutput = s.hostOutput ∨
    ∃ v, memRead Config.hw (cellAddr s) s = some v ∧ t.hostOutput = s.hostOutput ++ [v]

/-- R48 and R122: a step uses up at most one input event, the first of those the host has ready or the answer of the
host's turn, and no event is used twice. -/
def Obligations.InputIsTakenInOrder : Prop :=
  ∀ s t : State, step s = .next t →
    (t.hostInput = s.hostInput ∧ t.hostTaken = s.hostTaken) ∨
    ((∃ e, s.hostInput = e :: t.hostInput) ∧ t.hostTaken = s.hostTaken + 1) ∨
    ((∃ e rest, s.turns = .host (.answer e) :: rest) ∧ t.hostInput = s.hostInput ∧ t.hostTaken = s.hostTaken + 1)

/-! ## Run states and reset -/

/-- R27: the run state changes only from IDLE to RUNNING on a START, from RUNNING to HALTED by END, from RUNNING to
FAULTED by a fault, and to IDLE by a reset or a power-on. -/
def Obligations.RunStateTransitions : Prop :=
  ∀ s t : State, Inv s → step s = .next t → t.runState ≠ s.runState →
    (s.runState = .idle ∧ t.runState = .running ∧
      ∃ v rest, s.turns = .host (.writeReg 1 v) :: rest ∧ v.getLsbD 0 = true ∧ v.getLsbD 1 = false) ∨
    (s.runState = .running ∧ t.runState = .halted ∧ ∃ z, fetchInstr Config.hw s = some (.endRun z)) ∨
    (s.runState = .running ∧ t.runState = .faulted ∧ t.faultCause ≠ .none) ∨
    (t.runState = .idle ∧ ∃ rest, s.turns = .host .powerOn :: rest ∨
      ∃ v, s.turns = .host (.writeReg 1 v) :: rest ∧ v.getLsbD 1 = true)

/-- R168 and R176: in HALTED and in FAULTED the core takes no step and every interaction of the host but a reset and a
power-on leaves all state as it is. -/
def Obligations.StoppedCoreWaitsForReset : Prop :=
  ∀ s : State, Inv s → (s.runState = .halted ∨ s.runState = .faulted) →
    coreStep s = .next s ∧
    ∀ a : HostAction, a ≠ .powerOn → (∀ v, a = .writeReg 1 v → v.getLsbD 1 = false) → hostAct Config.hw a s = .next s

/-- R190 and R33: a write of CONTROL with bit 1 set, with or without bit 0, sets every piece of state but program
memory and PROG_LEN to its reset value, from every state. That the accepted bytes stay with the host and that a
withdrawn request consumes no event is R190; that the host's readiness, its coming events and its turns, and the marks
of the last START, are left as they are is log entry 24. -/
def Obligations.ResetSetsTheResetValues : Prop :=
  ∀ (v : Word) (s : State), v.getLsbD 1 = true →
    hostAct Config.hw (.writeReg 1 v) s = .next { State.reset with imem := s.imem, progLen := s.progLen, imemDraw := s.imemDraw, hostInput := s.hostInput, hostAccepts := s.hostAccepts, hostOutput := s.hostOutput, hostTaken := s.hostTaken, outputAtStart := s.outputAtStart, takenAtStart := s.takenAtStart, turns := s.turns }

/-- R38: power-on sets every piece of state to its power-on value; program memory is then unspecified: every index
reads the free value of that power-on (log entry 2). That the host's input, readiness, output, counts and turns are left
as they are over a power-on is log entry 24. -/
def Obligations.PowerOnSetsThePowerOnValues : Prop :=
  ∀ s : State, ∃ t, hostAct Config.hw .powerOn s = .next t ∧
    t = { State.reset with imemDraw := s.imemDraw + 1, hostInput := s.hostInput, hostAccepts := s.hostAccepts, hostOutput := s.hostOutput, hostTaken := s.hostTaken, outputAtStart := s.outputAtStart, takenAtStart := s.takenAtStart, turns := s.turns } ∧
    ∀ i, i < Config.hw.progDepth → progWord Config.hw i t = some (Config.powerOnWord (s.imemDraw + 1) i)

/-- R191: CONTROL reads 0; a write with bit 0 and not bit 1 starts an IDLE block, which then steps from index 0 with
`dp` 0 and the tape 0, and is ignored in any other state; a write with neither bit changes nothing (R33). That START marks where the run's
output and events begin is log entry 19. -/
def Obligations.StartWorksFromIdleOnly : Prop :=
  ∀ (v : Word) (s : State), v.getLsbD 1 = false →
    readReg 1 s = 0 ∧
    (v.getLsbD 0 = true → s.runState = .idle → hostAct Config.hw (.writeReg 1 v) s =
      .next { s with runState := .running, outputAtStart := s.hostOutput.length, takenAtStart := s.hostTaken }) ∧
    (Inv s → s.runState = .idle → s.ip = 0 ∧ s.dp = 0 ∧ ∀ a, s.tape.get a = 0) ∧
    (v.getLsbD 0 = false ∨ s.runState ≠ .idle → hostAct Config.hw (.writeReg 1 v) s = .next s)

/-! ## The host's ports -/

/-- R41: a load is accepted in IDLE below PROG_DEPTH, where it sets that word and no other; any other load is
ignored. No instruction writes program memory. -/
def Obligations.LoadSetsOneWord : Prop :=
  (∀ (i : Instr) (s t : State), exec i s = .next t → t.imem = s.imem) ∧
  ∀ (i : Nat) (w : Word) (s : State),
    (s.runState = .idle → i < Config.hw.progDepth → ∃ t, hostAct Config.hw (.load i w) s = .next t ∧
      progWord Config.hw i t = some w ∧
      (∀ j, j ≠ i → progWord Config.hw j t = progWord Config.hw j s) ∧ t = { s with imem := t.imem }) ∧
    (s.runState ≠ .idle ∨ Config.hw.progDepth ≤ i → hostAct Config.hw (.load i w) s = .next s)

/-- R34: PROG_LEN is written in IDLE only and clamped to PROG_DEPTH, reads back with bits 31:28 zero, and a reset
keeps it. That the clamp compares the written 32-bit value is log entry 13. -/
def Obligations.ProgLenIsClamped : Prop :=
  ∀ (v : Word) (s : State),
    (s.runState = .idle → ∃ t, hostAct Config.hw (.writeReg 2 v) s = .next t ∧
      t.progLen.toNat = min v.toNat Config.hw.progDepth ∧ t = { s with progLen := t.progLen } ∧
      (readReg 2 t).toNat = t.progLen.toNat) ∧
    (s.runState ≠ .idle → hostAct Config.hw (.writeReg 2 v) s = .next s) ∧
    (resetBlock s).progLen = s.progLen ∧ (powerOn s).progLen = 0 ∧
    (fetchable s = true ↔ s.ip.toNat < s.progLen.toNat)

/-- R28: the fields of STATUS with the codes of their values (R27, R29, R32), 0 after reset, and writes to it are
ignored. -/
def Obligations.StatusFields : Prop :=
  [RunState.idle, .running, .halted, .faulted].map RunState.code = [0, 1, 2, 3] ∧
  [Wait.none, .input, .output].map Wait.code = [0, 1, 2] ∧
  [FaultCause.none, .pointerRange, .inputRead, .illegalOpcode, .fetchRange].map FaultCause.code = [0, 1, 2, 3, 4] ∧
  ∀ s : State,
    readReg 0 s = statusWord s ∧ statusWord State.reset = 0 ∧
    (statusWord s).extractLsb' 0 2 = s.runState.code ∧ (statusWord s).extractLsb' 2 2 = s.wait.code ∧
    (statusWord s).extractLsb' 4 4 = s.faultCause.code ∧ (statusWord s).extractLsb' 8 4 = s.faultInfo ∧
    (statusWord s).extractLsb' 12 20 = 0#20 ∧
    ∀ v, hostAct Config.hw (.writeReg 0 v) s = .next s

/-- R36: what each host register address reads, every address past 5 reading 0; writes to any address but CONTROL and
PROG_LEN are ignored, and those to PROG_LEN outside IDLE. -/
def Obligations.RegisterMap : Prop :=
  ∀ s : State,
    readReg 0 s = statusWord s ∧ readReg 1 s = 0 ∧ (readReg 2 s).toNat = s.progLen.toNat ∧
    (readReg 3 s).toNat = s.ip.toNat ∧ (readReg 4 s).toNat = s.dp.toNat ∧ (readReg 5 s).toNat = s.faultIp.toNat ∧
    (∀ addr, 6 ≤ addr → readReg addr s = 0) ∧
    (∀ addr v, addr ≠ 1 → addr ≠ 2 → hostAct Config.hw (.writeReg addr v) s = .next s) ∧
    (∀ v, s.runState ≠ .idle → hostAct Config.hw (.writeReg 2 v) s = .next s) ∧
    (∀ v, s.runState = .idle → ∃ len, hostAct Config.hw (.writeReg 2 v) s = .next { s with progLen := len })

/-- R35: the tape port gives the cell while the core is not RUNNING and no value while it is; it gives none past the
tape (log entry 18). -/
def Obligations.TapeReadback : Prop :=
  ∀ (a : Nat) (s : State),
    (s.runState ≠ .running → a < Config.hw.tapeLen → hostReply Config.hw (.readTape a) s = .byte (s.tape.get a)) ∧
    (s.runState = .running ∨ Config.hw.tapeLen ≤ a → hostReply Config.hw (.readTape a) s = .nothing)

/-- R177: a read changes nothing, an answer without a held READ and an acceptance without a held WRITE are ignored, and
loads, lengths and starts outside IDLE too. -/
def Obligations.InteractionsOutsideTheirColumnAreIgnored : Prop :=
  ∀ (s : State) (a : HostAction),
    ((∃ addr, a = .readReg addr ∨ a = .readTape addr) ∨ (∃ e, a = .answer e ∧ s.wait ≠ .input) ∨
      (a = .accept ∧ s.wait ≠ .output) ∨ (s.runState ≠ .idle ∧ ∃ i w, a = .load i w) ∨
      (s.runState ≠ .idle ∧ ∃ v, a = .writeReg 2 v) ∨
      (s.runState ≠ .idle ∧ ∃ v, a = .writeReg 1 v ∧ v.getLsbD 1 = false)) →
    hostAct Config.hw a s = .next s ∧
    (∀ addr, a = .readReg addr → hostReply Config.hw a s = .word (readReg addr s)) ∧
    (a = .accept → hostReply Config.hw a s = .nothing)

/-- R192: from reset, the boot turns for any words that fit program memory leave the core RUNNING at index 0, with
`dp` 0 and the tape 0, those words loaded and PROG_LEN their number. -/
def Obligations.BootLoadsAndStarts : Prop :=
  ∀ ws : List Word, ws.length ≤ Config.hw.progDepth →
    ∃ t, Sys2Proof.core.run (ws.length + 2) { State.reset with turns := bootTurns ws } = .next t ∧
      CoreReady t ∧ t.ip = 0 ∧ t.dp = 0 ∧ t.tape = [] ∧ t.progLen.toNat = ws.length ∧
      ∀ i, (h : i < ws.length) → progWord Config.hw i t = some ws[i]

/-- R180 and, for the ends of a run, R179: a run has an observation exactly when it is HALTED or FAULTED, with exit
status 0 and 1. The observation gives the final state and the bytes and the number of events of this run alone: both are
empty when START begins it, whatever earlier runs left, and every step of the run appends at most the cell at the data
pointer and counts exactly the events it uses up. That the host's side stands in the state is log entry 5, how the
beginning of a run is marked log entry 19. -/
def Obligations.EndOfARunIsObserved : Prop :=
  (∀ s : State,
    ((observe s).isSome = true ↔ s.runState = .halted ∨ s.runState = .faulted) ∧
    (∀ o, observe s = some o →
      o.runState = s.runState ∧ o.faultCause = s.faultCause ∧ o.faultInfo = s.faultInfo ∧ o.faultIp = s.faultIp ∧
      o.ip = s.ip ∧ o.dp = s.dp ∧ o.tape = s.tape ∧ o.output = runOutput s ∧ o.inputTaken = runTaken s) ∧
    (exitStatus s = some 0 ↔ s.runState = .halted) ∧ (exitStatus s = some 1 ↔ s.runState = .faulted)) ∧
  (∀ (v : Word) (s : State), v.getLsbD 0 = true → v.getLsbD 1 = false → s.runState = .idle →
    ∃ t, hostAct Config.hw (.writeReg 1 v) s = .next t ∧ t.runState = .running ∧ runOutput t = [] ∧ runTaken t = 0) ∧
  (∀ s t : State, Inv s → s.runState = .running → step s = .next t →
    (runOutput t = runOutput s ∨
      ∃ v, memRead Config.hw (cellAddr s) s = some v ∧ runOutput t = runOutput s ++ [v]) ∧
    s.hostOutput ++ (runOutput t).drop (runOutput s).length = t.hostOutput ∧
    runTaken t + s.hostTaken = runTaken s + t.hostTaken)

/-! ## Memory and parameters -/

/-- R14, R26 and R45: a write to a cell is read back there and leaves every other cell; a cell exists exactly below
TAPE_LEN, for every configuration. -/
def Obligations.MemWriteThenMemRead : Prop :=
  ∀ (c : Config) (a : Nat) (v : Byte) (s : State),
    ((memWrite c a v s).isSome = true ↔ a < c.tapeLen) ∧ ((memRead c a s).isSome = true ↔ a < c.tapeLen) ∧
    ∀ t, memWrite c a v s = some t →
      memRead c a t = some v ∧ (∀ b, b ≠ a → memRead c b t = memRead c b s) ∧ t = { s with tape := t.tape }

/-- The canonical form of the tape is canonical: two tapes in the form with the same cells are the same data (log entry
16). -/
def Obligations.EqualCellsAreEqualTapes : Prop :=
  ∀ (c : Config) (m m' : Tape), Tape.wf c m → Tape.wf c m' → (∀ a, a < c.tapeLen → m.get a = m'.get a) → m = m'

/-- R6, R9, R10, R11: the parameters of this hardware and their limits; the capacity is any the spec allows. -/
def Obligations.ParametersOfThisHardware : Prop :=
  Config.hw.tapeLen = 30000 ∧ Config.hw.eofPolicy = .fault ∧ Config.hw.wf

/-! ## The translator -/

/-- R86 and R72: every translation is a well-formed image that fits program memory. -/
def Obligations.TranslationsAreWellFormedImages : Prop :=
  ∀ (c : Config) (source : List Char) (prog : List Instr), c.wf → translateSource c source = .ok prog →
    wellFormedImage prog = true ∧ prog.length ≤ c.progDepth

/-- R77 and R79: a run of `k` equal folding tokens is one instruction with operand `k`, for each of the four and up to
the longest run an operand holds (R85), wherever program memory holds two words; R80: a run of `k` output or input tokens
is `k` instructions, wherever they and the END (R84) fit. -/
def Obligations.RunsFoldIntoOneInstruction : Prop :=
  ∀ (c : Config) (k : Nat), 1 ≤ k →
    (∀ (tok : Token) (make : Operand → Instr), k < 2 ^ 28 → 2 ≤ c.progDepth → tok.foldsTo = some make →
      translateTokens c (List.replicate k tok) = .ok [make (BitVec.ofNat 28 k), .endRun 0]) ∧
    (k + 1 ≤ c.progDepth →
      translateTokens c (List.replicate k .output) = .ok (List.replicate k (.write 0) ++ [.endRun 0])) ∧
    (k + 1 ≤ c.progDepth →
      translateTokens c (List.replicate k .input) = .ok (List.replicate k (.read 0) ++ [.endRun 0]))

/-- R82, R83 and R84: with no run and no program too long (R85), a loop-close without an open loop is
UnexpectedTokenError, an open loop left at end-of-stream is UnbalancedBracketsError, and balanced loops translate. Of a
source with several errors, such as `][[`, the rules do not say which is reported: that it is the one met first is log
entry 21. -/
def Obligations.BracketErrors : Prop :=
  ∀ (c : Config) (ts : List Token), (∀ g ∈ groupRuns ts, g.2 < 2 ^ 28) → (groupRuns ts).length + 1 ≤ c.progDepth →
    (loopDepth ts 0 = none → translateTokens c ts = .error .unexpectedToken) ∧
    (∀ d, loopDepth ts 0 = some (d + 1) → translateTokens c ts = .error .unbalancedBrackets) ∧
    (loopDepth ts 0 = some 0 → ∃ prog, translateTokens c ts = .ok prog ∧ prog.length = (groupRuns ts).length + 1)
end

