-- ==== Sys2Proof/Laws/Config.lean ====
section
/-! SUPPORT. What is known of this hardware's parameters, its unknown capacity included. -/

namespace Sys2Proof

theorem Config.hw_tapeLen : Config.hw.tapeLen = 30000 := rfl

@[simp] theorem Config.hw_eofPolicy : Config.hw.eofPolicy = .fault := rfl

theorem Config.hw_progDepth_pos : 1 ≤ Config.hw.progDepth := Nat.le_add_left 1 _

theorem Config.hw_progDepth_le : Config.hw.progDepth ≤ 268435455 := Config.progDepthLessOne.isLt

theorem Config.hw_wf : Config.hw.wf :=
  ⟨by decide, by decide, Config.hw_progDepth_pos, Config.hw_progDepth_le⟩

end Sys2Proof
end

