-- ==== Sys2Proof/Laws/Encoding.lean ====
section
/-! SUPPORT. The fields of an encoded word, and the word as its two fields. -/

namespace Sys2Proof

/-- A bit of a word, by its two fields. -/
theorem getLsbD_word (op : Opcode) (n : Operand) (k : Nat) :
    BitVec.getLsbD (w := 32) (op ++ n) k = if k < 28 then n.getLsbD k else op.getLsbD (k - 28) :=
  BitVec.getLsbD_append

@[simp] theorem opcodeField_append (op : Opcode) (n : Operand) : opcodeField (op ++ n) = op := by
  ext i hi
  simp [opcodeField, getLsbD_word, BitVec.getLsbD_eq_getElem hi]

@[simp] theorem operandField_append (op : Opcode) (n : Operand) : operandField (op ++ n) = n := by
  ext i hi
  simp [operandField, getLsbD_word, hi]

@[simp] theorem opcodeField_encode (i : Instr) : opcodeField (encode i) = i.opcode := by
  simp [encode]

@[simp] theorem operandField_encode (i : Instr) : operandField (encode i) = i.operand := by
  simp [encode]

/-- A word is its opcode field before its operand field (R60). -/
theorem word_eq_fields (w : Word) : opcodeField w ++ operandField w = w := by
  ext i hi
  simp only [opcodeField, operandField, BitVec.getElem_append, BitVec.getElem_extractLsb']
  split
  · simp [BitVec.getLsbD_eq_getElem hi]
  · rw [BitVec.getLsbD_eq_getElem (by omega)]; congr 1; omega

end Sys2Proof
end

