-- ==== Sys2Proof/Laws/State.lean ====
section
/-! SUPPORT. One lemma per field for every named update of the state, each true by rfl: a later proof reads a field
of an updated state without unfolding the update. -/

namespace Sys2Proof.Machine

/-! ## `advance` -/

@[simp] theorem advance_ip (s : State) : (advance s).ip = s.ip + 1 := rfl
@[simp] theorem advance_dp (s : State) : (advance s).dp = s.dp := rfl
@[simp] theorem advance_tape (s : State) : (advance s).tape = s.tape := rfl
@[simp] theorem advance_imem (s : State) : (advance s).imem = s.imem := rfl
@[simp] theorem advance_progLen (s : State) : (advance s).progLen = s.progLen := rfl
@[simp] theorem advance_runState (s : State) : (advance s).runState = s.runState := rfl
@[simp] theorem advance_wait (s : State) : (advance s).wait = s.wait := rfl
@[simp] theorem advance_faultCause (s : State) : (advance s).faultCause = s.faultCause := rfl
@[simp] theorem advance_faultInfo (s : State) : (advance s).faultInfo = s.faultInfo := rfl
@[simp] theorem advance_faultIp (s : State) : (advance s).faultIp = s.faultIp := rfl
@[simp] theorem advance_imemDraw (s : State) : (advance s).imemDraw = s.imemDraw := rfl
@[simp] theorem advance_hostInput (s : State) : (advance s).hostInput = s.hostInput := rfl
@[simp] theorem advance_hostAccepts (s : State) : (advance s).hostAccepts = s.hostAccepts := rfl
@[simp] theorem advance_hostOutput (s : State) : (advance s).hostOutput = s.hostOutput := rfl
@[simp] theorem advance_hostTaken (s : State) : (advance s).hostTaken = s.hostTaken := rfl
@[simp] theorem advance_outputAtStart (s : State) : (advance s).outputAtStart = s.outputAtStart := rfl
@[simp] theorem advance_takenAtStart (s : State) : (advance s).takenAtStart = s.takenAtStart := rfl
@[simp] theorem advance_turns (s : State) : (advance s).turns = s.turns := rfl

/-! ## `jumpTo` -/

@[simp] theorem jumpTo_ip (t : ProgIndex) (s : State) : (jumpTo t s).ip = t := rfl
@[simp] theorem jumpTo_dp (t : ProgIndex) (s : State) : (jumpTo t s).dp = s.dp := rfl
@[simp] theorem jumpTo_tape (t : ProgIndex) (s : State) : (jumpTo t s).tape = s.tape := rfl
@[simp] theorem jumpTo_imem (t : ProgIndex) (s : State) : (jumpTo t s).imem = s.imem := rfl
@[simp] theorem jumpTo_progLen (t : ProgIndex) (s : State) : (jumpTo t s).progLen = s.progLen := rfl
@[simp] theorem jumpTo_runState (t : ProgIndex) (s : State) : (jumpTo t s).runState = s.runState := rfl
@[simp] theorem jumpTo_wait (t : ProgIndex) (s : State) : (jumpTo t s).wait = s.wait := rfl
@[simp] theorem jumpTo_faultCause (t : ProgIndex) (s : State) : (jumpTo t s).faultCause = s.faultCause := rfl
@[simp] theorem jumpTo_faultInfo (t : ProgIndex) (s : State) : (jumpTo t s).faultInfo = s.faultInfo := rfl
@[simp] theorem jumpTo_faultIp (t : ProgIndex) (s : State) : (jumpTo t s).faultIp = s.faultIp := rfl
@[simp] theorem jumpTo_imemDraw (t : ProgIndex) (s : State) : (jumpTo t s).imemDraw = s.imemDraw := rfl
@[simp] theorem jumpTo_hostInput (t : ProgIndex) (s : State) : (jumpTo t s).hostInput = s.hostInput := rfl
@[simp] theorem jumpTo_hostAccepts (t : ProgIndex) (s : State) : (jumpTo t s).hostAccepts = s.hostAccepts := rfl
@[simp] theorem jumpTo_hostOutput (t : ProgIndex) (s : State) : (jumpTo t s).hostOutput = s.hostOutput := rfl
@[simp] theorem jumpTo_hostTaken (t : ProgIndex) (s : State) : (jumpTo t s).hostTaken = s.hostTaken := rfl
@[simp] theorem jumpTo_outputAtStart (t : ProgIndex) (s : State) : (jumpTo t s).outputAtStart = s.outputAtStart := rfl
@[simp] theorem jumpTo_takenAtStart (t : ProgIndex) (s : State) : (jumpTo t s).takenAtStart = s.takenAtStart := rfl
@[simp] theorem jumpTo_turns (t : ProgIndex) (s : State) : (jumpTo t s).turns = s.turns := rfl

/-! ## `setDp` -/

@[simp] theorem setDp_ip (t : TapeIndex) (s : State) : (setDp t s).ip = s.ip := rfl
@[simp] theorem setDp_dp (t : TapeIndex) (s : State) : (setDp t s).dp = t := rfl
@[simp] theorem setDp_tape (t : TapeIndex) (s : State) : (setDp t s).tape = s.tape := rfl
@[simp] theorem setDp_imem (t : TapeIndex) (s : State) : (setDp t s).imem = s.imem := rfl
@[simp] theorem setDp_progLen (t : TapeIndex) (s : State) : (setDp t s).progLen = s.progLen := rfl
@[simp] theorem setDp_runState (t : TapeIndex) (s : State) : (setDp t s).runState = s.runState := rfl
@[simp] theorem setDp_wait (t : TapeIndex) (s : State) : (setDp t s).wait = s.wait := rfl
@[simp] theorem setDp_faultCause (t : TapeIndex) (s : State) : (setDp t s).faultCause = s.faultCause := rfl
@[simp] theorem setDp_faultInfo (t : TapeIndex) (s : State) : (setDp t s).faultInfo = s.faultInfo := rfl
@[simp] theorem setDp_faultIp (t : TapeIndex) (s : State) : (setDp t s).faultIp = s.faultIp := rfl
@[simp] theorem setDp_imemDraw (t : TapeIndex) (s : State) : (setDp t s).imemDraw = s.imemDraw := rfl
@[simp] theorem setDp_hostInput (t : TapeIndex) (s : State) : (setDp t s).hostInput = s.hostInput := rfl
@[simp] theorem setDp_hostAccepts (t : TapeIndex) (s : State) : (setDp t s).hostAccepts = s.hostAccepts := rfl
@[simp] theorem setDp_hostOutput (t : TapeIndex) (s : State) : (setDp t s).hostOutput = s.hostOutput := rfl
@[simp] theorem setDp_hostTaken (t : TapeIndex) (s : State) : (setDp t s).hostTaken = s.hostTaken := rfl
@[simp] theorem setDp_outputAtStart (t : TapeIndex) (s : State) : (setDp t s).outputAtStart = s.outputAtStart := rfl
@[simp] theorem setDp_takenAtStart (t : TapeIndex) (s : State) : (setDp t s).takenAtStart = s.takenAtStart := rfl
@[simp] theorem setDp_turns (t : TapeIndex) (s : State) : (setDp t s).turns = s.turns := rfl

/-! ## `haltCore` -/

@[simp] theorem haltCore_ip (s : State) : (haltCore s).ip = s.ip := rfl
@[simp] theorem haltCore_dp (s : State) : (haltCore s).dp = s.dp := rfl
@[simp] theorem haltCore_tape (s : State) : (haltCore s).tape = s.tape := rfl
@[simp] theorem haltCore_imem (s : State) : (haltCore s).imem = s.imem := rfl
@[simp] theorem haltCore_progLen (s : State) : (haltCore s).progLen = s.progLen := rfl
@[simp] theorem haltCore_runState (s : State) : (haltCore s).runState = .halted := rfl
@[simp] theorem haltCore_wait (s : State) : (haltCore s).wait = s.wait := rfl
@[simp] theorem haltCore_faultCause (s : State) : (haltCore s).faultCause = s.faultCause := rfl
@[simp] theorem haltCore_faultInfo (s : State) : (haltCore s).faultInfo = s.faultInfo := rfl
@[simp] theorem haltCore_faultIp (s : State) : (haltCore s).faultIp = s.faultIp := rfl
@[simp] theorem haltCore_imemDraw (s : State) : (haltCore s).imemDraw = s.imemDraw := rfl
@[simp] theorem haltCore_hostInput (s : State) : (haltCore s).hostInput = s.hostInput := rfl
@[simp] theorem haltCore_hostAccepts (s : State) : (haltCore s).hostAccepts = s.hostAccepts := rfl
@[simp] theorem haltCore_hostOutput (s : State) : (haltCore s).hostOutput = s.hostOutput := rfl
@[simp] theorem haltCore_hostTaken (s : State) : (haltCore s).hostTaken = s.hostTaken := rfl
@[simp] theorem haltCore_outputAtStart (s : State) : (haltCore s).outputAtStart = s.outputAtStart := rfl
@[simp] theorem haltCore_takenAtStart (s : State) : (haltCore s).takenAtStart = s.takenAtStart := rfl
@[simp] theorem haltCore_turns (s : State) : (haltCore s).turns = s.turns := rfl

/-! ## `raise` -/

@[simp] theorem raise_ip (c : FaultCause) (i : BitVec 4) (s : State) : (raise c i s).ip = s.ip := rfl
@[simp] theorem raise_dp (c : FaultCause) (i : BitVec 4) (s : State) : (raise c i s).dp = s.dp := rfl
@[simp] theorem raise_tape (c : FaultCause) (i : BitVec 4) (s : State) : (raise c i s).tape = s.tape := rfl
@[simp] theorem raise_imem (c : FaultCause) (i : BitVec 4) (s : State) : (raise c i s).imem = s.imem := rfl
@[simp] theorem raise_progLen (c : FaultCause) (i : BitVec 4) (s : State) : (raise c i s).progLen = s.progLen := rfl
@[simp] theorem raise_runState (c : FaultCause) (i : BitVec 4) (s : State) : (raise c i s).runState = .faulted := rfl
@[simp] theorem raise_wait (c : FaultCause) (i : BitVec 4) (s : State) : (raise c i s).wait = s.wait := rfl
@[simp] theorem raise_faultCause (c : FaultCause) (i : BitVec 4) (s : State) : (raise c i s).faultCause = c := rfl
@[simp] theorem raise_faultInfo (c : FaultCause) (i : BitVec 4) (s : State) : (raise c i s).faultInfo = i := rfl
@[simp] theorem raise_faultIp (c : FaultCause) (i : BitVec 4) (s : State) : (raise c i s).faultIp = s.ip := rfl
@[simp] theorem raise_imemDraw (c : FaultCause) (i : BitVec 4) (s : State) : (raise c i s).imemDraw = s.imemDraw := rfl
@[simp] theorem raise_hostInput (c : FaultCause) (i : BitVec 4) (s : State) : (raise c i s).hostInput = s.hostInput := rfl
@[simp] theorem raise_hostAccepts (c : FaultCause) (i : BitVec 4) (s : State) : (raise c i s).hostAccepts = s.hostAccepts := rfl
@[simp] theorem raise_hostOutput (c : FaultCause) (i : BitVec 4) (s : State) : (raise c i s).hostOutput = s.hostOutput := rfl
@[simp] theorem raise_hostTaken (c : FaultCause) (i : BitVec 4) (s : State) : (raise c i s).hostTaken = s.hostTaken := rfl
@[simp] theorem raise_outputAtStart (c : FaultCause) (i : BitVec 4) (s : State) : (raise c i s).outputAtStart = s.outputAtStart := rfl
@[simp] theorem raise_takenAtStart (c : FaultCause) (i : BitVec 4) (s : State) : (raise c i s).takenAtStart = s.takenAtStart := rfl
@[simp] theorem raise_turns (c : FaultCause) (i : BitVec 4) (s : State) : (raise c i s).turns = s.turns := rfl

/-! ## `takeEvent` -/

@[simp] theorem takeEvent_ip (s : State) : (takeEvent s).ip = s.ip := rfl
@[simp] theorem takeEvent_dp (s : State) : (takeEvent s).dp = s.dp := rfl
@[simp] theorem takeEvent_tape (s : State) : (takeEvent s).tape = s.tape := rfl
@[simp] theorem takeEvent_imem (s : State) : (takeEvent s).imem = s.imem := rfl
@[simp] theorem takeEvent_progLen (s : State) : (takeEvent s).progLen = s.progLen := rfl
@[simp] theorem takeEvent_runState (s : State) : (takeEvent s).runState = s.runState := rfl
@[simp] theorem takeEvent_wait (s : State) : (takeEvent s).wait = .none := rfl
@[simp] theorem takeEvent_faultCause (s : State) : (takeEvent s).faultCause = s.faultCause := rfl
@[simp] theorem takeEvent_faultInfo (s : State) : (takeEvent s).faultInfo = s.faultInfo := rfl
@[simp] theorem takeEvent_faultIp (s : State) : (takeEvent s).faultIp = s.faultIp := rfl
@[simp] theorem takeEvent_imemDraw (s : State) : (takeEvent s).imemDraw = s.imemDraw := rfl
@[simp] theorem takeEvent_hostInput (s : State) : (takeEvent s).hostInput = s.hostInput := rfl
@[simp] theorem takeEvent_hostAccepts (s : State) : (takeEvent s).hostAccepts = s.hostAccepts := rfl
@[simp] theorem takeEvent_hostOutput (s : State) : (takeEvent s).hostOutput = s.hostOutput := rfl
@[simp] theorem takeEvent_hostTaken (s : State) : (takeEvent s).hostTaken = s.hostTaken + 1 := rfl
@[simp] theorem takeEvent_outputAtStart (s : State) : (takeEvent s).outputAtStart = s.outputAtStart := rfl
@[simp] theorem takeEvent_takenAtStart (s : State) : (takeEvent s).takenAtStart = s.takenAtStart := rfl
@[simp] theorem takeEvent_turns (s : State) : (takeEvent s).turns = s.turns := rfl

/-! ## `acceptByte` -/

@[simp] theorem acceptByte_ip (b : Byte) (s : State) : (acceptByte b s).ip = s.ip + 1 := rfl
@[simp] theorem acceptByte_dp (b : Byte) (s : State) : (acceptByte b s).dp = s.dp := rfl
@[simp] theorem acceptByte_tape (b : Byte) (s : State) : (acceptByte b s).tape = s.tape := rfl
@[simp] theorem acceptByte_imem (b : Byte) (s : State) : (acceptByte b s).imem = s.imem := rfl
@[simp] theorem acceptByte_progLen (b : Byte) (s : State) : (acceptByte b s).progLen = s.progLen := rfl
@[simp] theorem acceptByte_runState (b : Byte) (s : State) : (acceptByte b s).runState = s.runState := rfl
@[simp] theorem acceptByte_wait (b : Byte) (s : State) : (acceptByte b s).wait = .none := rfl
@[simp] theorem acceptByte_faultCause (b : Byte) (s : State) : (acceptByte b s).faultCause = s.faultCause := rfl
@[simp] theorem acceptByte_faultInfo (b : Byte) (s : State) : (acceptByte b s).faultInfo = s.faultInfo := rfl
@[simp] theorem acceptByte_faultIp (b : Byte) (s : State) : (acceptByte b s).faultIp = s.faultIp := rfl
@[simp] theorem acceptByte_imemDraw (b : Byte) (s : State) : (acceptByte b s).imemDraw = s.imemDraw := rfl
@[simp] theorem acceptByte_hostInput (b : Byte) (s : State) : (acceptByte b s).hostInput = s.hostInput := rfl
@[simp] theorem acceptByte_hostAccepts (b : Byte) (s : State) : (acceptByte b s).hostAccepts = s.hostAccepts := rfl
@[simp] theorem acceptByte_hostOutput (b : Byte) (s : State) : (acceptByte b s).hostOutput = s.hostOutput ++ [b] := rfl
@[simp] theorem acceptByte_hostTaken (b : Byte) (s : State) : (acceptByte b s).hostTaken = s.hostTaken := rfl
@[simp] theorem acceptByte_outputAtStart (b : Byte) (s : State) : (acceptByte b s).outputAtStart = s.outputAtStart := rfl
@[simp] theorem acceptByte_takenAtStart (b : Byte) (s : State) : (acceptByte b s).takenAtStart = s.takenAtStart := rfl
@[simp] theorem acceptByte_turns (b : Byte) (s : State) : (acceptByte b s).turns = s.turns := rfl

/-! ## `resetBlock` -/

@[simp] theorem resetBlock_ip (s : State) : (resetBlock s).ip = 0 := rfl
@[simp] theorem resetBlock_dp (s : State) : (resetBlock s).dp = 0 := rfl
@[simp] theorem resetBlock_tape (s : State) : (resetBlock s).tape = [] := rfl
@[simp] theorem resetBlock_imem (s : State) : (resetBlock s).imem = s.imem := rfl
@[simp] theorem resetBlock_progLen (s : State) : (resetBlock s).progLen = s.progLen := rfl
@[simp] theorem resetBlock_runState (s : State) : (resetBlock s).runState = .idle := rfl
@[simp] theorem resetBlock_wait (s : State) : (resetBlock s).wait = .none := rfl
@[simp] theorem resetBlock_faultCause (s : State) : (resetBlock s).faultCause = .none := rfl
@[simp] theorem resetBlock_faultInfo (s : State) : (resetBlock s).faultInfo = 0 := rfl
@[simp] theorem resetBlock_faultIp (s : State) : (resetBlock s).faultIp = 0 := rfl
@[simp] theorem resetBlock_imemDraw (s : State) : (resetBlock s).imemDraw = s.imemDraw := rfl
@[simp] theorem resetBlock_hostInput (s : State) : (resetBlock s).hostInput = s.hostInput := rfl
@[simp] theorem resetBlock_hostAccepts (s : State) : (resetBlock s).hostAccepts = s.hostAccepts := rfl
@[simp] theorem resetBlock_hostOutput (s : State) : (resetBlock s).hostOutput = s.hostOutput := rfl
@[simp] theorem resetBlock_hostTaken (s : State) : (resetBlock s).hostTaken = s.hostTaken := rfl
@[simp] theorem resetBlock_outputAtStart (s : State) : (resetBlock s).outputAtStart = s.outputAtStart := rfl
@[simp] theorem resetBlock_takenAtStart (s : State) : (resetBlock s).takenAtStart = s.takenAtStart := rfl
@[simp] theorem resetBlock_turns (s : State) : (resetBlock s).turns = s.turns := rfl

/-! ## `powerOn` -/

@[simp] theorem powerOn_ip (s : State) : (powerOn s).ip = 0 := rfl
@[simp] theorem powerOn_dp (s : State) : (powerOn s).dp = 0 := rfl
@[simp] theorem powerOn_tape (s : State) : (powerOn s).tape = [] := rfl
@[simp] theorem powerOn_imem (s : State) : (powerOn s).imem = [] := rfl
@[simp] theorem powerOn_progLen (s : State) : (powerOn s).progLen = 0 := rfl
@[simp] theorem powerOn_runState (s : State) : (powerOn s).runState = .idle := rfl
@[simp] theorem powerOn_wait (s : State) : (powerOn s).wait = .none := rfl
@[simp] theorem powerOn_faultCause (s : State) : (powerOn s).faultCause = .none := rfl
@[simp] theorem powerOn_faultInfo (s : State) : (powerOn s).faultInfo = 0 := rfl
@[simp] theorem powerOn_faultIp (s : State) : (powerOn s).faultIp = 0 := rfl
@[simp] theorem powerOn_imemDraw (s : State) : (powerOn s).imemDraw = s.imemDraw + 1 := rfl
@[simp] theorem powerOn_hostInput (s : State) : (powerOn s).hostInput = s.hostInput := rfl
@[simp] theorem powerOn_hostAccepts (s : State) : (powerOn s).hostAccepts = s.hostAccepts := rfl
@[simp] theorem powerOn_hostOutput (s : State) : (powerOn s).hostOutput = s.hostOutput := rfl
@[simp] theorem powerOn_hostTaken (s : State) : (powerOn s).hostTaken = s.hostTaken := rfl
@[simp] theorem powerOn_outputAtStart (s : State) : (powerOn s).outputAtStart = s.outputAtStart := rfl
@[simp] theorem powerOn_takenAtStart (s : State) : (powerOn s).takenAtStart = s.takenAtStart := rfl
@[simp] theorem powerOn_turns (s : State) : (powerOn s).turns = s.turns := rfl

/-! ## `State.withFetchWord` -/

@[simp] theorem State.withFetchWord_ip (s : State) (n w : Nat) : (s.withFetchWord n w).ip = fetchSlot s := rfl
@[simp] theorem State.withFetchWord_dp (s : State) (n w : Nat) : (s.withFetchWord n w).dp = s.dp := rfl
@[simp] theorem State.withFetchWord_tape (s : State) (n w : Nat) : (s.withFetchWord n w).tape = s.tape := rfl
@[simp] theorem State.withFetchWord_imem (s : State) (n w : Nat) : (s.withFetchWord n w).imem = setKey (fetchSlot s).toNat (wordOfBits n w) s.imem := rfl
@[simp] theorem State.withFetchWord_progLen (s : State) (n w : Nat) : (s.withFetchWord n w).progLen = fetchSlotLen s := rfl
@[simp] theorem State.withFetchWord_runState (s : State) (n w : Nat) : (s.withFetchWord n w).runState = .running := rfl
@[simp] theorem State.withFetchWord_wait (s : State) (n w : Nat) : (s.withFetchWord n w).wait = .none := rfl
@[simp] theorem State.withFetchWord_faultCause (s : State) (n w : Nat) : (s.withFetchWord n w).faultCause = s.faultCause := rfl
@[simp] theorem State.withFetchWord_faultInfo (s : State) (n w : Nat) : (s.withFetchWord n w).faultInfo = s.faultInfo := rfl
@[simp] theorem State.withFetchWord_faultIp (s : State) (n w : Nat) : (s.withFetchWord n w).faultIp = s.faultIp := rfl
@[simp] theorem State.withFetchWord_imemDraw (s : State) (n w : Nat) : (s.withFetchWord n w).imemDraw = s.imemDraw := rfl
@[simp] theorem State.withFetchWord_hostInput (s : State) (n w : Nat) : (s.withFetchWord n w).hostInput = s.hostInput := rfl
@[simp] theorem State.withFetchWord_hostAccepts (s : State) (n w : Nat) : (s.withFetchWord n w).hostAccepts = s.hostAccepts := rfl
@[simp] theorem State.withFetchWord_hostOutput (s : State) (n w : Nat) : (s.withFetchWord n w).hostOutput = s.hostOutput := rfl
@[simp] theorem State.withFetchWord_hostTaken (s : State) (n w : Nat) : (s.withFetchWord n w).hostTaken = s.hostTaken := rfl
@[simp] theorem State.withFetchWord_outputAtStart (s : State) (n w : Nat) : (s.withFetchWord n w).outputAtStart = s.outputAtStart := rfl
@[simp] theorem State.withFetchWord_takenAtStart (s : State) (n w : Nat) : (s.withFetchWord n w).takenAtStart = s.takenAtStart := rfl
@[simp] theorem State.withFetchWord_turns (s : State) (n w : Nat) : (s.withFetchWord n w).turns = [] := rfl

/-! ## `markStart` -/

@[simp] theorem markStart_ip (s : State) : (markStart s).ip = s.ip := rfl
@[simp] theorem markStart_dp (s : State) : (markStart s).dp = s.dp := rfl
@[simp] theorem markStart_tape (s : State) : (markStart s).tape = s.tape := rfl
@[simp] theorem markStart_imem (s : State) : (markStart s).imem = s.imem := rfl
@[simp] theorem markStart_progLen (s : State) : (markStart s).progLen = s.progLen := rfl
@[simp] theorem markStart_runState (s : State) : (markStart s).runState = s.runState := rfl
@[simp] theorem markStart_wait (s : State) : (markStart s).wait = s.wait := rfl
@[simp] theorem markStart_faultCause (s : State) : (markStart s).faultCause = s.faultCause := rfl
@[simp] theorem markStart_faultInfo (s : State) : (markStart s).faultInfo = s.faultInfo := rfl
@[simp] theorem markStart_faultIp (s : State) : (markStart s).faultIp = s.faultIp := rfl
@[simp] theorem markStart_imemDraw (s : State) : (markStart s).imemDraw = s.imemDraw := rfl
@[simp] theorem markStart_hostInput (s : State) : (markStart s).hostInput = s.hostInput := rfl
@[simp] theorem markStart_hostAccepts (s : State) : (markStart s).hostAccepts = s.hostAccepts := rfl
@[simp] theorem markStart_hostOutput (s : State) : (markStart s).hostOutput = s.hostOutput := rfl
@[simp] theorem markStart_hostTaken (s : State) : (markStart s).hostTaken = s.hostTaken := rfl
@[simp] theorem markStart_outputAtStart (s : State) : (markStart s).outputAtStart = s.hostOutput.length := rfl
@[simp] theorem markStart_takenAtStart (s : State) : (markStart s).takenAtStart = s.hostTaken := rfl
@[simp] theorem markStart_turns (s : State) : (markStart s).turns = s.turns := rfl

end Sys2Proof.Machine
end

