-- ==== Sys2Proof/Laws/Memory.lean ====
section
/-! SUPPORT. The laws of the sparse memories: read after write, canonical form kept by every operation, and equal
contents are equal data. -/

namespace Sys2Proof.Machine

variable {α : Type}

/-! ## Lookup after an update -/

theorem lookupKey_setKey_same (k : Nat) (v : α) (m : List (Nat × α)) : lookupKey k (setKey k v m) = some v := by
  induction m with
  | nil => simp [setKey, lookupKey]
  | cons p rest ih =>
    simp only [setKey]
    split
    · simp [lookupKey]
    · split
      · simp [lookupKey]
      · simp [lookupKey, ih]; omega

theorem lookupKey_setKey_other {k j : Nat} (h : j ≠ k) (v : α) (m : List (Nat × α)) :
    lookupKey j (setKey k v m) = lookupKey j m := by
  induction m with
  | nil => simp [setKey, lookupKey, Ne.symm h]
  | cons p rest ih =>
    simp only [setKey]
    split
    · simp [lookupKey, Ne.symm h]
    · split
      · rename_i _ hk; simp [lookupKey, ← hk, Ne.symm h]
      · simp [lookupKey, ih]

theorem lookupKey_eraseKey_same (k : Nat) (m : List (Nat × α)) : lookupKey k (eraseKey k m) = none := by
  induction m with
  | nil => rfl
  | cons p rest ih =>
    simp only [eraseKey]
    split
    · exact ih
    · simp_all [lookupKey]

theorem lookupKey_eraseKey_other {k j : Nat} (h : j ≠ k) (m : List (Nat × α)) :
    lookupKey j (eraseKey k m) = lookupKey j m := by
  induction m with
  | nil => rfl
  | cons p rest ih =>
    simp only [eraseKey]
    split
    · rename_i hk; simp [lookupKey, ih, hk, Ne.symm h]
    · simp [lookupKey, ih]

/-! ## Members after an update -/

theorem mem_setKey {k : Nat} {v : α} {m : List (Nat × α)} {p : Nat × α} (h : p ∈ setKey k v m) :
    p = (k, v) ∨ p ∈ m := by
  induction m with
  | nil => simpa [setKey] using h
  | cons q rest ih =>
    simp only [setKey] at h
    split at h
    · simpa using h
    · split at h
      · simp at h ⊢; tauto
      · simp at h ⊢; tauto

theorem mem_eraseKey {k : Nat} {m : List (Nat × α)} {p : Nat × α} (h : p ∈ eraseKey k m) : p ∈ m := by
  induction m with
  | nil => exact h
  | cons q rest ih =>
    simp only [eraseKey] at h
    split at h
    · exact List.mem_cons_of_mem _ (ih h)
    · simp at h ⊢; tauto

/-! ## The keys keep rising -/

theorem keysRise_setKey {k : Nat} {v : α} {m : List (Nat × α)} (h : keysRise m) : keysRise (setKey k v m) := by
  induction m with
  | nil => simp [setKey]
  | cons q rest ih =>
    obtain ⟨hq, hr⟩ := List.pairwise_cons.1 h
    simp only [setKey]
    split
    · rename_i hk
      refine List.pairwise_cons.2 ⟨fun p hp => ?_, h⟩
      rcases List.mem_cons.1 hp with rfl | hp
      · exact hk
      · exact Nat.lt_trans hk (hq p hp)
    · split
      · rename_i _ hk
        exact List.pairwise_cons.2 ⟨fun p hp => hk ▸ hq p hp, hr⟩
      · refine List.pairwise_cons.2 ⟨fun p hp => ?_, ih hr⟩
        rcases mem_setKey hp with rfl | hp
        · simp; omega
        · exact hq p hp

theorem keysRise_eraseKey {k : Nat} {m : List (Nat × α)} (h : keysRise m) : keysRise (eraseKey k m) := by
  induction m with
  | nil => exact h
  | cons q rest ih =>
    obtain ⟨hq, hr⟩ := List.pairwise_cons.1 h
    simp only [eraseKey]
    split
    · exact ih hr
    · exact List.pairwise_cons.2 ⟨fun p hp => hq p (mem_eraseKey hp), ih hr⟩

/-! ## The tape -/

@[simp] theorem Tape.get_set_same (m : Tape) (a : Nat) (v : Byte) : (m.set a v).get a = v := by
  unfold Tape.set Tape.get
  split
  · rename_i h; simp [lookupKey_eraseKey_same, h]
  · simp [lookupKey_setKey_same]

theorem Tape.get_set_other (m : Tape) {a b : Nat} (h : b ≠ a) (v : Byte) : (m.set a v).get b = m.get b := by
  unfold Tape.set Tape.get
  split
  · simp [lookupKey_eraseKey_other h]
  · simp [lookupKey_setKey_other h]

/-- A write keeps the tape's canonical form. -/
theorem Tape.wf_set {c : Config} {m : Tape} {a : Nat} {v : Byte} (h : Tape.wf c m) (ha : a < c.tapeLen) :
    Tape.wf c (m.set a v) := by
  unfold Tape.set
  split
  · exact ⟨keysRise_eraseKey h.1, fun p hp => h.2 p (mem_eraseKey hp)⟩
  · rename_i hv
    refine ⟨keysRise_setKey h.1, fun p hp => ?_⟩
    rcases mem_setKey hp with rfl | hp
    · exact ⟨ha, hv⟩
    · exact h.2 p hp

/-- `MemRead` in terms of the cells. -/
theorem memRead_eq_some {c : Config} {a : Nat} {s : State} {v : Byte} :
    memRead c a s = some v ↔ a < c.tapeLen ∧ s.tape.get a = v := by
  unfold memRead; split <;> simp_all

/-- `MemWrite` answers a state exactly where the cell exists. -/
theorem memWrite_eq_some {c : Config} {a : Nat} {v : Byte} {s t : State} :
    memWrite c a v s = some t ↔ a < c.tapeLen ∧ t = { s with tape := s.tape.set a v } := by
  unfold memWrite; split <;> simp_all [eq_comm]

/-! ## Program memory -/

/-- A load keeps program memory's canonical form. -/
theorem IMem.wf_setKey {c : Config} {m : IMem} {i : Nat} {w : Word} (h : IMem.wf c m) (hi : i < c.progDepth) :
    IMem.wf c (setKey i w m) := by
  refine ⟨keysRise_setKey h.1, fun p hp => ?_⟩
  rcases mem_setKey hp with rfl | hp
  · exact hi
  · exact h.2 p hp

/-- Reset memory is in canonical form, for every configuration. -/
theorem State.reset_memory_wf (c : Config) : Memory.wf c State.reset := by
  simp [State.reset, Memory.wf, Tape.wf, IMem.wf]

/-- A word below `PROG_DEPTH` always exists. -/
theorem progWord_isSome {c : Config} {i : Nat} {s : State} (h : i < c.progDepth) : (progWord c i s).isSome := by
  unfold progWord; split <;> simp [h]

theorem progWord_of_lookup {c : Config} {i : Nat} {s : State} {w : Word} (h : lookupKey i s.imem = some w) :
    progWord c i s = some w := by
  simp [progWord, h]

end Sys2Proof.Machine
end

