-- ==== Sys2Proof/Laws/Ops.lean ====
section
/-! SUPPORT. One lemma for each shared operation: everything it can do when it answers a next state, or when it is
applied where it completes. -/

namespace Sys2Proof.Machine

theorem next_eq_next {a b : State} : (Host.Outcome.next a : Result) = .next b ↔ b = a := by
  rw [Host.Outcome.next.injEq, eq_comm]

/-! ## The implicit cell -/

theorem withCell_of_lt {c : Config} {s : State} {next : Byte → Result} (h : s.dp.toNat < c.tapeLen) :
    withCell c s next = next (s.tape.get (cellAddr s)) := by
  simp [withCell, memRead, cellAddr, h]

theorem withCell_of_le {c : Config} {s : State} {next : Byte → Result} (h : c.tapeLen ≤ s.dp.toNat) :
    withCell c s next = .fault .noSuchCell := by
  simp [withCell, memRead, cellAddr, Nat.not_lt.2 h]

theorem withCell_eq_next {c : Config} {s t : State} {next : Byte → Result} :
    withCell c s next = .next t ↔ s.dp.toNat < c.tapeLen ∧ next (s.tape.get (cellAddr s)) = .next t := by
  by_cases h : s.dp.toNat < c.tapeLen
  · simp [withCell_of_lt h, h]
  · simp [withCell_of_le (Nat.not_lt.1 h), h]

theorem storeCell_of_lt {c : Config} {v : Byte} {s : State} (h : s.dp.toNat < c.tapeLen) :
    storeCell c v s = .next (advance { s with tape := s.tape.set (cellAddr s) v }) := by
  simp [storeCell, memWrite, cellAddr, h]

theorem storeCell_of_le {c : Config} {v : Byte} {s : State} (h : c.tapeLen ≤ s.dp.toNat) :
    storeCell c v s = .fault .noSuchCell := by
  simp [storeCell, memWrite, cellAddr, Nat.not_lt.2 h]

theorem storeCell_eq_next {c : Config} {v : Byte} {s t : State} :
    storeCell c v s = .next t ↔
      s.dp.toNat < c.tapeLen ∧ t = advance { s with tape := s.tape.set (cellAddr s) v } := by
  by_cases h : s.dp.toNat < c.tapeLen
  · simp [storeCell_of_lt h, h, eq_comm]
  · simp [storeCell_of_le (Nat.not_lt.1 h), h]

/-! ## Cell arithmetic -/

theorem cellAdd_toNat (v : Byte) (k : Nat) : (cellAdd v k).toNat = (v.toNat + k) % 256 := by
  simp [cellAdd]

theorem cellSub_toNat (v : Byte) (k : Nat) : ((cellSub v k).toNat : Int) = ((v.toNat : Int) - k) % 256 := by
  simp only [cellSub, BitVec.toNat_ofInt]
  omega

theorem cellAdd_add (v : Byte) (j k : Nat) : cellAdd (cellAdd v j) k = cellAdd v (j + k) := by
  apply BitVec.eq_of_toNat_eq; simp only [cellAdd_toNat]; omega

theorem cellSub_sub (v : Byte) (j k : Nat) : cellSub (cellSub v j) k = cellSub v (j + k) := by
  apply BitVec.eq_of_toNat_eq
  have h1 := cellSub_toNat v j
  have h2 := cellSub_toNat (cellSub v j) k
  have h3 := cellSub_toNat v (j + k)
  omega

theorem cellSub_cellAdd (v : Byte) (k : Nat) : cellSub (cellAdd v k) k = v := by
  apply BitVec.eq_of_toNat_eq
  have h1 := cellAdd_toNat v k
  have h2 := cellSub_toNat (cellAdd v k) k
  have := v.isLt
  omega

/-! ## The pointer arithmetic unit -/

theorem movePtr_above {c : Config} {x : Int} {s : State} (h : x ≥ c.tapeLen) :
    movePtr c x s = raise .pointerRange 0 s := by
  simp [movePtr, h]

theorem movePtr_below {c : Config} {x : Int} {s : State} (h : x < 0) : movePtr c x s = raise .pointerRange 1 s := by
  have : ¬ x ≥ c.tapeLen := by omega
  simp [movePtr, h, this]

theorem movePtr_inside {c : Config} {k : Nat} {s : State} (h : k < c.tapeLen) :
    movePtr c k s = advance (setDp (BitVec.ofNat 15 k) s) := by
  have h1 : ¬ (k : Int) ≥ c.tapeLen := by omega
  have h2 : ¬ (k : Int) < 0 := by omega
  simp only [movePtr, h1, h2, if_false]
  rfl

/-- What the unit can do, as a natural number when it moves. -/
theorem movePtr_cases (c : Config) (x : Int) (s : State) :
    (x ≥ c.tapeLen ∧ movePtr c x s = raise .pointerRange 0 s) ∨
    (x < 0 ∧ movePtr c x s = raise .pointerRange 1 s) ∨
    (∃ k : Nat, x = k ∧ k < c.tapeLen ∧ movePtr c x s = advance (setDp (BitVec.ofNat 15 k) s)) := by
  by_cases h1 : x ≥ c.tapeLen
  · exact .inl ⟨h1, movePtr_above h1⟩
  · by_cases h2 : x < 0
    · exact .inr (.inl ⟨h2, movePtr_below h2⟩)
    · obtain ⟨k, rfl⟩ : ∃ k : Nat, x = k := ⟨x.toNat, by omega⟩
      have hk : k < c.tapeLen := by omega
      exact .inr (.inr ⟨k, rfl, hk, movePtr_inside hk⟩)

/-! ## The ports -/

theorem offerByte_held {b : Byte} {s : State} (h : s.hostAccepts = 0) : offerByte b s = { s with wait := .output } := by
  simp [offerByte, h]

theorem offerByte_accepted {b : Byte} {s : State} {k : Nat} (h : s.hostAccepts = k + 1) :
    offerByte b s = acceptByte b { s with hostAccepts := k } := by
  simp [offerByte, h]

/-- What an offer can do. -/
theorem offerByte_cases (b : Byte) (s : State) :
    (s.hostAccepts = 0 ∧ offerByte b s = { s with wait := .output }) ∨
    (∃ k, s.hostAccepts = k + 1 ∧ offerByte b s = acceptByte b { s with hostAccepts := k }) := by
  rcases h : s.hostAccepts with _ | k
  · simp [offerByte, h]
  · simp [offerByte, h]

/-- What a READ can do with its event. -/
theorem finishRead_cases {c : Config} {e : InputEvent} {s t : State} (h : finishRead c e s = .next t) :
    (s.dp.toNat < c.tapeLen ∧ ∃ b, t = advance { takeEvent s with tape := s.tape.set (cellAddr s) b }) ∨
    (e = .error ∧ t = raise .inputRead 0 (takeEvent s)) ∨
    (e = .endOfInput ∧ c.eofPolicy = .fault ∧ t = raise .inputRead 1 (takeEvent s)) ∨
    (e = .endOfInput ∧ c.eofPolicy = .unchanged ∧ t = advance (takeEvent s)) := by
  cases e with
  | byte b => exact .inl ⟨(storeCell_eq_next.1 h).1, b, (storeCell_eq_next.1 h).2⟩
  | error => exact .inr (.inl ⟨rfl, by simpa [finishRead, eq_comm] using h⟩)
  | endOfInput =>
    simp only [finishRead] at h
    split at h
    · rename_i hp; exact .inr (.inr (.inl ⟨rfl, hp, by simpa [eq_comm] using h⟩))
    · exact .inl ⟨(storeCell_eq_next.1 h).1, _, (storeCell_eq_next.1 h).2⟩
    · exact .inl ⟨(storeCell_eq_next.1 h).1, _, (storeCell_eq_next.1 h).2⟩
    · rename_i hp; exact .inr (.inr (.inr ⟨rfl, hp, by simpa [eq_comm] using h⟩))

theorem finishWrite_eq_next {c : Config} {s t : State} :
    finishWrite c s = .next t ↔ s.dp.toNat < c.tapeLen ∧ t = acceptByte (s.tape.get (cellAddr s)) s := by
  simp only [finishWrite, withCell_eq_next, next_eq_next]

theorem finishRead_isNext {c : Config} (e : InputEvent) {s : State} (h : s.dp.toNat < c.tapeLen) :
    ∃ t, finishRead c e s = .next t := by
  have hs : ∀ v, ∃ t, storeCell c v (takeEvent s) = .next t := fun v => ⟨_, storeCell_of_lt (s := takeEvent s) h⟩
  cases e with
  | byte b => exact hs b
  | error => exact ⟨_, rfl⟩
  | endOfInput =>
    simp only [finishRead]
    split
    · exact ⟨_, rfl⟩
    · exact hs _
    · exact hs _
    · exact ⟨_, rfl⟩

end Sys2Proof.Machine
end

