-- ==== Sys2Proof/Laws/Exec.lean ====
section
/-! SUPPORT. Each meaning at a next state, in the terms of the shared operations, and what a step can do: the lemmas a
proof about every step cites instead of unfolding the machine. -/

namespace Sys2Proof.Machine

/-- Everything an instruction can do when it answers a next state, guards included: the machine's instructions as a
relation, for this hardware's configuration. -/
inductive Effect (i : Instr) (s : State) : State → Prop where
  | added (n : Operand) (hi : i = .addByte n) (hd : s.dp.toNat < Config.hw.tapeLen) :
      Effect i s (advance { s with tape := s.tape.set (cellAddr s) (cellAdd (s.tape.get (cellAddr s)) n.toNat) })
  | subtracted (n : Operand) (hi : i = .subByte n) (hd : s.dp.toNat < Config.hw.tapeLen) :
      Effect i s (advance { s with tape := s.tape.set (cellAddr s) (cellSub (s.tape.get (cellAddr s)) n.toNat) })
  | moved (k : Nat) (hk : k < Config.hw.tapeLen)
      (hi : (∃ n, i = .addPtr n ∧ k = s.dp.toNat + n.toNat) ∨ (∃ n, i = .subPtr n ∧ k + n.toNat = s.dp.toNat)) :
      Effect i s (advance (setDp (BitVec.ofNat 15 k) s))
  | above (hi : (∃ n, i = .addPtr n ∧ Config.hw.tapeLen ≤ s.dp.toNat + n.toNat) ∨
        (∃ n, i = .subPtr n ∧ Config.hw.tapeLen + n.toNat ≤ s.dp.toNat)) :
      Effect i s (raise .pointerRange 0 s)
  | below (n : Operand) (hi : i = .subPtr n) (hn : s.dp.toNat < n.toNat) : Effect i s (raise .pointerRange 1 s)
  | offered (z : Operand) (hi : i = .write z) (hd : s.dp.toNat < Config.hw.tapeLen) (ha : s.hostAccepts = 0) :
      Effect i s { s with wait := .output }
  | accepted (z : Operand) (hi : i = .write z) (hd : s.dp.toNat < Config.hw.tapeLen) (k : Nat)
      (ha : s.hostAccepts = k + 1) :
      Effect i s (acceptByte (s.tape.get (cellAddr s)) { s with hostAccepts := k })
  | requested (z : Operand) (hi : i = .read z) (he : s.hostInput = []) : Effect i s { s with wait := .input }
  | readByte (z : Operand) (hi : i = .read z) (hd : s.dp.toNat < Config.hw.tapeLen) (b : Byte)
      (rest : List InputEvent) (he : s.hostInput = .byte b :: rest) :
      Effect i s (advance { takeEvent { s with hostInput := rest } with tape := s.tape.set (cellAddr s) b })
  | readError (z : Operand) (hi : i = .read z) (rest : List InputEvent) (he : s.hostInput = .error :: rest) :
      Effect i s (raise .inputRead 0 (takeEvent { s with hostInput := rest }))
  | readEnd (z : Operand) (hi : i = .read z) (rest : List InputEvent) (he : s.hostInput = .endOfInput :: rest) :
      Effect i s (raise .inputRead 1 (takeEvent { s with hostInput := rest }))
  | jumped (u : Operand) (hi : i = .jump u ∨ i = .jumpIfZero u ∧ s.tape.get (cellAddr s) = 0) :
      Effect i s (jumpTo u s)
  | passed (u : Operand) (hi : i = .jumpIfZero u) (hv : s.tape.get (cellAddr s) ≠ 0) : Effect i s (advance s)
  | halted (z : Operand) (hi : i = .endRun z) : Effect i s (haltCore s)
  | illegal (hi : i.isIllegal = true) (ho : 9 ≤ i.opcode.toNat) : Effect i s (raise .illegalOpcode i.opcode s)

/-! ## The meanings at a next state -/

theorem exec_addByte_next {n : Operand} {s t : State} :
    exec (.addByte n) s = .next t ↔ s.dp.toNat < Config.hw.tapeLen ∧
      t = advance { s with tape := s.tape.set (cellAddr s) (cellAdd (s.tape.get (cellAddr s)) n.toNat) } := by
  simp only [exec, execAddByte, withCell_eq_next, storeCell_eq_next, countOf]; tauto

theorem exec_subByte_next {n : Operand} {s t : State} :
    exec (.subByte n) s = .next t ↔ s.dp.toNat < Config.hw.tapeLen ∧
      t = advance { s with tape := s.tape.set (cellAddr s) (cellSub (s.tape.get (cellAddr s)) n.toNat) } := by
  simp only [exec, execSubByte, withCell_eq_next, storeCell_eq_next, countOf]; tauto

theorem exec_addPtr (n : Operand) (s : State) :
    exec (.addPtr n) s = .next (movePtr Config.hw ((s.dp.toNat : Int) + n.toNat) s) := rfl

theorem exec_subPtr (n : Operand) (s : State) :
    exec (.subPtr n) s = .next (movePtr Config.hw ((s.dp.toNat : Int) - n.toNat) s) := rfl

theorem exec_write_next {z : Operand} {s t : State} :
    exec (.write z) s = .next t ↔ s.dp.toNat < Config.hw.tapeLen ∧ t = offerByte (s.tape.get (cellAddr s)) s := by
  simp only [exec, execWrite, withCell_eq_next, next_eq_next]

theorem exec_read_none {z : Operand} {s : State} (h : s.hostInput = []) :
    exec (.read z) s = .next { s with wait := .input } := by
  simp [exec, execRead, h]

theorem exec_read_event {z : Operand} {s : State} {e : InputEvent} {rest : List InputEvent}
    (h : s.hostInput = e :: rest) : exec (.read z) s = finishRead Config.hw e { s with hostInput := rest } := by
  simp [exec, execRead, h]

theorem exec_jumpIfZero_next {u : Operand} {s t : State} :
    exec (.jumpIfZero u) s = .next t ↔ s.dp.toNat < Config.hw.tapeLen ∧
      t = if s.tape.get (cellAddr s) = 0 then jumpTo u s else advance s := by
  simp only [exec, execJumpIfZero, withCell_eq_next, next_eq_next, cellIsZero, targetOf, beq_iff_eq]

theorem opcode_illegalAB_ge : ∀ lo : BitVec 1, 9 ≤ (5#3 ++ lo).toNat := by decide

theorem opcode_illegalCF_ge : ∀ lo : BitVec 2, 9 ≤ (3#2 ++ lo).toNat := by decide

/-- Every next state of an instruction is one of its effects. -/
theorem exec_effect {i : Instr} {s t : State} (h : exec i s = .next t) : Effect i s t := by
  cases i with
  | addByte n => obtain ⟨hd, rfl⟩ := exec_addByte_next.1 h; exact .added n rfl hd
  | subByte n => obtain ⟨hd, rfl⟩ := exec_subByte_next.1 h; exact .subtracted n rfl hd
  | addPtr n =>
    rw [exec_addPtr] at h; injection h with h; subst h
    rcases movePtr_cases Config.hw ((s.dp.toNat : Int) + n.toNat) s with ⟨hx, e⟩ | ⟨hx, e⟩ | ⟨k, hx, hk, e⟩ <;> rw [e]
    · exact .above (.inl ⟨n, rfl, by omega⟩)
    · omega
    · exact .moved k hk (.inl ⟨n, rfl, by omega⟩)
  | subPtr n =>
    rw [exec_subPtr] at h; injection h with h; subst h
    rcases movePtr_cases Config.hw ((s.dp.toNat : Int) - n.toNat) s with ⟨hx, e⟩ | ⟨hx, e⟩ | ⟨k, hx, hk, e⟩ <;> rw [e]
    · exact .above (.inr ⟨n, rfl, by omega⟩)
    · exact .below n rfl (by omega)
    · exact .moved k hk (.inr ⟨n, rfl, by omega⟩)
  | write z =>
    obtain ⟨hd, rfl⟩ := exec_write_next.1 h
    rcases offerByte_cases (s.tape.get (cellAddr s)) s with ⟨h0, e⟩ | ⟨k, hk, e⟩ <;> rw [e]
    · exact .offered z rfl hd h0
    · exact .accepted z rfl hd k hk
  | read z =>
    rcases hi : s.hostInput with _ | ⟨e, rest⟩
    · rw [exec_read_none hi] at h; injection h with h; exact h ▸ .requested z rfl hi
    · rw [exec_read_event hi] at h
      cases e with
      | byte b => obtain ⟨hd, rfl⟩ := storeCell_eq_next.1 h; exact Effect.readByte (s := s) z rfl hd b rest hi
      | error => injection h with h; exact h ▸ .readError z rfl rest hi
      | endOfInput => injection h with h; exact h ▸ .readEnd z rfl rest hi
  | jumpIfZero u =>
    obtain ⟨_, rfl⟩ := exec_jumpIfZero_next.1 h
    split
    · exact .jumped u (.inr ⟨rfl, ‹_›⟩)
    · exact .passed u rfl ‹_›
  | jump u => injection h with h; exact h ▸ .jumped u (.inl rfl)
  | endRun z => injection h with h; exact h ▸ .halted z rfl
  | illegal9 x => injection h with h; exact h ▸ .illegal (i := .illegal9 x) rfl (Nat.le_refl 9)
  | illegalAB lo x =>
    injection h with h; exact h ▸ .illegal (i := .illegalAB lo x) rfl (opcode_illegalAB_ge lo)
  | illegalCF lo x =>
    injection h with h; exact h ▸ .illegal (i := .illegalCF lo x) rfl (opcode_illegalCF_ge lo)

/-- With the data pointer inside the tape every instruction answers a next state. -/
theorem exec_isNext (i : Instr) {s : State} (h : s.dp.toNat < Config.hw.tapeLen) : ∃ t, exec i s = .next t := by
  cases i with
  | addByte n => exact ⟨_, exec_addByte_next.2 ⟨h, rfl⟩⟩
  | subByte n => exact ⟨_, exec_subByte_next.2 ⟨h, rfl⟩⟩
  | addPtr n => exact ⟨_, rfl⟩
  | subPtr n => exact ⟨_, rfl⟩
  | write z => exact ⟨_, exec_write_next.2 ⟨h, rfl⟩⟩
  | read z =>
    rcases hi : s.hostInput with _ | ⟨e, rest⟩
    · exact ⟨_, exec_read_none hi⟩
    · rw [exec_read_event hi]; exact finishRead_isNext e h
  | jumpIfZero u => exact ⟨_, exec_jumpIfZero_next.2 ⟨h, rfl⟩⟩
  | jump u => exact ⟨_, rfl⟩
  | endRun z => exact ⟨_, rfl⟩
  | illegal9 x => exact ⟨_, rfl⟩
  | illegalAB lo x => exact ⟨_, rfl⟩
  | illegalCF lo x => exact ⟨_, rfl⟩

/-- A straight line goes on after an instruction that leaves the core RUNNING. -/
theorem execAll_cons {i : Instr} {rest : List Instr} {s t : State} (h : exec i s = .next t)
    (hr : t.runState = .running) : execAll (i :: rest) s = execAll rest t := by
  simp [execAll, h, hr]

/-! ## The step -/

/-- What the core's move can be: nothing, a fetch fault, or the instruction at `ip`. -/
theorem coreStep_cases {s t : State} (h : coreStep s = .next t) :
    (coreMayStep s = false ∧ t = s) ∨
    (coreMayStep s = true ∧ s.progLen.toNat ≤ s.ip.toNat ∧ t = raise .fetchRange 0 s) ∨
    (coreMayStep s = true ∧ s.ip.toNat < s.progLen.toNat ∧
      ∃ i, fetchInstr Config.hw s = some i ∧ exec i s = .next t) := by
  unfold coreStep at h
  by_cases hm : coreMayStep s = true
  · rw [if_pos hm] at h
    unfold dispatch at h
    by_cases hf : fetchable s = true
    · rw [if_pos hf] at h
      have hlt : s.ip.toNat < s.progLen.toNat := by simpa [fetchable] using hf
      rcases hw : fetchWord Config.hw s with _ | w
      · simp [hw] at h
      · rw [hw] at h
        exact .inr (.inr ⟨hm, hlt, decode w, by simp [fetchInstr, hf, hw], h⟩)
    · rw [if_neg hf] at h
      injection h with h
      exact .inr (.inl ⟨hm, by simpa [fetchable] using hf, h.symm⟩)
  · rw [if_neg hm] at h
    injection h with h
    exact .inl ⟨by simpa using hm, h.symm⟩

theorem coreMayStep_running {s : State} (h : coreMayStep s = true) : s.runState = .running := by
  unfold coreMayStep at h; split at h <;> simp_all

theorem coreMayStep_of_ready {s : State} (hr : s.runState = .running) (hw : s.wait = .none) : coreMayStep s = true := by
  simp [coreMayStep, hr, hw]

/-- The core's move in its own turn: the instruction at `ip`. -/
theorem step_eq_exec {s : State} {i : Instr} (h : CoreReady s) (hi : fetchInstr Config.hw s = some i) :
    step s = exec i s := by
  obtain ⟨ht, hr, hw⟩ := h
  unfold fetchInstr at hi
  split at hi
  · rename_i hf
    obtain ⟨w, hw', rfl⟩ := Option.map_eq_some_iff.1 hi
    simp [step, ht, coreStep, coreMayStep_of_ready hr hw, dispatch, hf, hw']
  · simp at hi

theorem step_fetchRange {s : State} (h : CoreReady s) (hl : s.progLen.toNat ≤ s.ip.toNat) :
    step s = .next (raise .fetchRange 0 s) := by
  obtain ⟨ht, hr, hw⟩ := h
  have hf : fetchable s = false := by simpa [fetchable] using hl
  simp [step, ht, coreStep, coreMayStep_of_ready hr hw, dispatch, hf]

end Sys2Proof.Machine
end

