-- ==== Sys2Proof/Laws/Images.lean ====
section
/-! SUPPORT. Reading a program in pieces: the bracket matching of R72 (f) over a concatenation and over a longer stack,
the single END, and what a fetch gives when program memory holds a program. -/

namespace Sys2Proof.Machine

theorem matchJumps_append (xs ys : List Instr) : ∀ idx stack,
    matchJumps (xs ++ ys) idx stack = (matchJumps xs idx stack).bind (matchJumps ys (idx + xs.length)) := by
  induction xs with
  | nil => intro idx stack; simp [matchJumps]
  | cons x r ih =>
    intro idx stack
    have e : idx + (x :: r).length = idx + 1 + r.length := by simp; omega
    rw [e, List.cons_append]
    cases x with
    | jump t =>
      cases stack with
      | nil => simp [matchJumps]
      | cons p stack =>
        simp only [matchJumps]
        split
        · rw [ih]
        · rfl
    | _ => simp only [matchJumps]; rw [ih]

/-- What lies deeper on the stack is not touched. -/
theorem matchJumps_frame (xs : List Instr) : ∀ idx stack left deeper, matchJumps xs idx stack = some left →
    matchJumps xs idx (stack ++ deeper) = some (left ++ deeper) := by
  induction xs with
  | nil => intro idx stack left deeper h; simp [matchJumps] at h; simp [matchJumps, h]
  | cons x r ih =>
    intro idx stack left deeper h
    cases x with
    | jump t =>
      cases stack with
      | nil => simp [matchJumps] at h
      | cons p stack =>
        simp only [matchJumps, List.cons_append] at h ⊢
        split at h
        · rename_i hc; rw [if_pos hc]; exact ih _ _ _ _ h
        · cases h
    | jumpIfZero t => simp only [matchJumps] at h ⊢; exact ih _ (_ :: stack) _ _ h
    | _ => simp only [matchJumps] at h ⊢; exact ih _ _ _ _ h

theorem wellFormedImage_parts {prog : List Instr} (h : wellFormedImage prog = true) :
    endsOnce prog = true ∧ (∀ i ∈ prog, i.wellFormed = true) ∧ matchJumps prog 0 [] = some [] := by
  simpa [wellFormedImage, jumpsPaired, and_assoc] using h

/-- In a program that ends once, exactly the last word is END. -/
theorem endsOnce_getElem? {prog : List Instr} (h : endsOnce prog = true) : ∀ (p : Nat) (i : Instr),
    prog[p]? = some i → (i.isEnd = true ↔ p + 1 = prog.length) := by
  induction prog with
  | nil => simp [endsOnce] at h
  | cons x r ih =>
    cases r with
    | nil =>
      intro p i hp
      simp [endsOnce] at h
      cases p with
      | zero => simp at hp; subst hp; simp [h]
      | succ p => simp at hp
    | cons y r =>
      simp [endsOnce] at h
      intro p i hp
      cases p with
      | zero => simp at hp; subst hp; simp [h.1]
      | succ p =>
        have := ih h.2 p i (by simpa using hp)
        rw [this]; simp

theorem lookupKey_fetch {s : State} {i : Instr} (hd : decode (encode i) = i) (hl : s.ip.toNat < s.progLen.toNat)
    (h : lookupKey s.ip.toNat s.imem = some (encode i)) : fetchInstr Config.hw s = some i := by
  have hf : fetchable s = true := by simpa [fetchable] using hl
  simp [fetchInstr, hf, fetchWord, progWord_of_lookup h, hd]

end Sys2Proof.Machine
end

