-- ==== Sys2Proof/Laws/PerInstr.lean ====
section
/-! SUPPORT. The statement made per instruction: the word of an instruction belongs to the instruction's own row of
spec/opcode_table.json. -/

namespace Sys2Proof.Laws.EncodesItsRow

/-- The word belongs to the row. -/
def Statement (i : Instr) : Prop :=
  ∃ r, opcodeTable[i.row]? = some r ∧ r.holds (encode i) = true

/-- A row whose mask is the opcode field holds every word with the row's opcode. -/
theorem holds_of_opcode (op : Opcode) (n : Operand) (name : String) (fixed mask : Word)
    (hm : mask.extractLsb' 0 28 = 0#28) (hf : fixed.extractLsb' 0 28 = 0#28)
    (ho : op &&& mask.extractLsb' 28 4 = fixed.extractLsb' 28 4) :
    OpcodeRow.holds ⟨name, fixed, mask⟩ (op ++ n) = true := by
  simp only [OpcodeRow.holds, beq_iff_eq]
  ext i hi
  rw [BitVec.getElem_and, BitVec.getElem_append]
  split
  · rename_i h
    have h1 := congrArg (fun b : BitVec 28 => b.getLsbD i) hm
    have h2 := congrArg (fun b : BitVec 28 => b.getLsbD i) hf
    simp [h, BitVec.getLsbD_eq_getElem hi] at h1 h2
    simp [h1, h2]
  · rename_i h
    have h1 := congrArg (fun b : BitVec 4 => b.getLsbD (i - 28)) ho
    have e : 28 + (i - 28) = i := by omega
    have h4 : i - 28 < 4 := by omega
    simp [h4, e, BitVec.getLsbD_eq_getElem hi] at h1
    simpa [BitVec.getLsbD_eq_getElem h4] using h1

theorem opcode_illegalAB : ∀ lo : BitVec 1,
    (Instr.illegalAB lo 0).opcode &&& (0xE0000000#32).extractLsb' 28 4 = (0xA0000000#32).extractLsb' 28 4 := by
  decide

theorem opcode_illegalCF : ∀ lo : BitVec 2,
    (Instr.illegalCF lo 0).opcode &&& (0xC0000000#32).extractLsb' 28 4 = (0xC0000000#32).extractLsb' 28 4 := by
  decide

theorem addByte (n : Operand) : Statement (.addByte n) :=
  ⟨_, rfl, holds_of_opcode 0 _ _ _ _ (by decide) (by decide) (by decide)⟩

theorem subByte (n : Operand) : Statement (.subByte n) :=
  ⟨_, rfl, holds_of_opcode 1 _ _ _ _ (by decide) (by decide) (by decide)⟩

theorem addPtr (n : Operand) : Statement (.addPtr n) :=
  ⟨_, rfl, holds_of_opcode 2 _ _ _ _ (by decide) (by decide) (by decide)⟩

theorem subPtr (n : Operand) : Statement (.subPtr n) :=
  ⟨_, rfl, holds_of_opcode 3 _ _ _ _ (by decide) (by decide) (by decide)⟩

theorem write (z : Operand) : Statement (.write z) :=
  ⟨_, rfl, holds_of_opcode 4 _ _ _ _ (by decide) (by decide) (by decide)⟩

theorem read (z : Operand) : Statement (.read z) :=
  ⟨_, rfl, holds_of_opcode 5 _ _ _ _ (by decide) (by decide) (by decide)⟩

theorem jumpIfZero (t : Operand) : Statement (.jumpIfZero t) :=
  ⟨_, rfl, holds_of_opcode 6 _ _ _ _ (by decide) (by decide) (by decide)⟩

theorem jump (t : Operand) : Statement (.jump t) :=
  ⟨_, rfl, holds_of_opcode 7 _ _ _ _ (by decide) (by decide) (by decide)⟩

theorem endRun (z : Operand) : Statement (.endRun z) :=
  ⟨_, rfl, holds_of_opcode 8 _ _ _ _ (by decide) (by decide) (by decide)⟩

theorem illegal9 (x : Operand) : Statement (.illegal9 x) :=
  ⟨_, rfl, holds_of_opcode 9 _ _ _ _ (by decide) (by decide) (by decide)⟩

theorem illegalAB (lo : BitVec 1) (x : Operand) : Statement (.illegalAB lo x) :=
  ⟨_, rfl, holds_of_opcode _ _ _ _ _ (by decide) (by decide) (opcode_illegalAB lo)⟩

theorem illegalCF (lo : BitVec 2) (x : Operand) : Statement (.illegalCF lo x) :=
  ⟨_, rfl, holds_of_opcode _ _ _ _ _ (by decide) (by decide) (opcode_illegalCF lo)⟩

end Sys2Proof.Laws.EncodesItsRow
end

