-- ==== Sys2Proof/Laws/Run.lean ====
section
/-! SUPPORT. What a step can be, whoever moves; what the core's own step can be when it is ready; runs of several
steps; neither an instruction nor the invariant reads the turns. -/

namespace Sys2Proof.Machine

/-- A step is the core's move or one interaction of the host, each on the state without the turn it uses up. -/
theorem step_cases {s t : State} (h : step s = .next t) :
    (∃ r, coreStep { s with turns := r } = .next t ∧ (s.turns = [] ∧ r = [] ∨ s.turns = .core :: r)) ∨
    (∃ a r, s.turns = .host a :: r ∧ hostAct Config.hw a { s with turns := r } = .next t) := by
  unfold step at h
  split at h
  · rename_i ht; exact .inl ⟨[], by rw [← ht]; exact h, .inl ⟨ht, rfl⟩⟩
  · rename_i r ht; exact .inl ⟨r, h, .inr ht⟩
  · rename_i a r ht; exact .inr ⟨a, r, ht, h⟩

/-- A ready core raises the fetch fault or runs the instruction it fetches. -/
theorem step_ready_cases {s t : State} (hr : CoreReady s) (h : step s = .next t) :
    (s.progLen.toNat ≤ s.ip.toNat ∧ t = raise .fetchRange 0 s) ∨
    (∃ i, fetchInstr Config.hw s = some i ∧ exec i s = .next t) := by
  obtain ⟨ht, hr', hw⟩ := hr
  simp only [step, ht] at h
  rcases coreStep_cases h with ⟨h1, _⟩ | ⟨_, h1, h2⟩ | ⟨_, _, h2⟩
  · rw [coreMayStep_of_ready hr' hw] at h1; cases h1
  · exact .inl ⟨h1, h2⟩
  · exact .inr h2

theorem run_next (M : Host.Core) {s t : M.State} {k : Nat} (h : M.step s = .next t) : M.run (k + 1) s = M.run k t := by
  simp [Host.Core.run, h]

/-- The first step of a run of this machine. -/
theorem core_run_next {s t : State} {k : Nat} (h : step s = .next t) :
    Sys2Proof.core.run (k + 1) s = Sys2Proof.core.run k t :=
  run_next Sys2Proof.core h

/-- No instruction moves the marks of the last START. -/
theorem exec_marks {i : Instr} {s t : State} (h : exec i s = .next t) :
    t.outputAtStart = s.outputAtStart ∧ t.takenAtStart = s.takenAtStart := by
  cases exec_effect h <;> exact ⟨rfl, rfl⟩

/-- A step leaves the marks of the last START, or it is a START from IDLE and sets them. -/
theorem step_marks {s t : State} (h : step s = .next t) :
    (t.outputAtStart = s.outputAtStart ∧ t.takenAtStart = s.takenAtStart) ∨
    (s.runState = .idle ∧ t.runState = .running ∧ t.hostOutput = s.hostOutput ∧ t.hostTaken = s.hostTaken ∧
      t.outputAtStart = s.hostOutput.length ∧ t.takenAtStart = s.hostTaken) := by
  rcases step_cases h with ⟨r, h, _⟩ | ⟨a, r, _, h⟩
  · rcases coreStep_cases h with ⟨_, rfl⟩ | ⟨_, _, rfl⟩ | ⟨_, _, i, _, he⟩
    · exact .inl ⟨rfl, rfl⟩
    · exact .inl ⟨rfl, rfl⟩
    · exact .inl (exec_marks (s := { s with turns := r }) he)
  · cases a with
    | powerOn => injection h with h; subst h; exact .inl ⟨rfl, rfl⟩
    | writeReg addr v =>
      injection h with h; subst h
      simp only [writeReg, writeControl, startRun, writeProgLen]
      split
      · split
        · exact .inl ⟨rfl, rfl⟩
        · split
          · split
            · rename_i hi; exact .inr ⟨by simpa [isIdle] using hi, rfl, rfl, rfl, rfl, rfl⟩
            · exact .inl ⟨rfl, rfl⟩
          · exact .inl ⟨rfl, rfl⟩
      · split <;> exact .inl ⟨rfl, rfl⟩
      · exact .inl ⟨rfl, rfl⟩
    | load i w => injection h with h; subst h; simp only [loadWord]; split <;> exact .inl ⟨rfl, rfl⟩
    | answer e =>
      simp only [hostAct] at h
      split at h
      · rcases finishRead_cases h with ⟨_, b, rfl⟩ | ⟨_, rfl⟩ | ⟨_, _, rfl⟩ | ⟨_, _, rfl⟩ <;> exact .inl ⟨rfl, rfl⟩
      · injection h with h; subst h; exact .inl ⟨rfl, rfl⟩
    | accept =>
      simp only [hostAct] at h
      split at h
      · obtain ⟨_, rfl⟩ := finishWrite_eq_next.1 h; exact .inl ⟨rfl, rfl⟩
      · injection h with h; subst h; exact .inl ⟨rfl, rfl⟩
    | readReg addr => injection h with h; subst h; exact .inl ⟨rfl, rfl⟩
    | readTape a => injection h with h; subst h; exact .inl ⟨rfl, rfl⟩

/-- The invariant says nothing of the turns. -/
theorem Inv.with_turns {s : State} (h : Inv s) (r : List Turn) : Inv { s with turns := r } :=
  ⟨h.memory_wf, h.dp_in_tape, h.len_le_depth, h.wait_running, h.wait_input, h.wait_output, h.record_clear,
   h.record_legal, h.idle_reset, h.run_counts⟩

/-- No instruction reads the turns: with other turns planned the same instruction does the same. -/
theorem exec_with_turns {i : Instr} {s t : State} (he : exec i s = .next t) (r : List Turn) :
    exec i { s with turns := r } = .next { t with turns := r } := by
  cases i with
  | addByte n => obtain ⟨hd, rfl⟩ := exec_addByte_next.1 he; exact exec_addByte_next.2 ⟨hd, rfl⟩
  | subByte n => obtain ⟨hd, rfl⟩ := exec_subByte_next.1 he; exact exec_subByte_next.2 ⟨hd, rfl⟩
  | addPtr n =>
    rw [exec_addPtr] at he ⊢; injection he with he; subst he
    simp only [movePtr]; split
    · rfl
    · split <;> rfl
  | subPtr n =>
    rw [exec_subPtr] at he ⊢; injection he with he; subst he
    simp only [movePtr]; split
    · rfl
    · split <;> rfl
  | write z =>
    obtain ⟨hd, rfl⟩ := exec_write_next.1 he; refine exec_write_next.2 ⟨hd, ?_⟩
    rcases offerByte_cases (s.tape.get (cellAddr s)) s with ⟨h, _⟩ | ⟨k, h, _⟩
    · simp only [offerByte, h]
    · simp only [offerByte, h]; rfl
  | read z =>
    obtain h | ⟨e, rest, h⟩ : s.hostInput = [] ∨ ∃ e rest, s.hostInput = e :: rest := by cases s.hostInput <;> simp
    · rw [exec_read_none h] at he; injection he with he; subst he
      exact exec_read_none (s := { s with turns := r }) h
    · rw [exec_read_event h] at he
      rw [exec_read_event (s := { s with turns := r }) h]
      cases e with
      | byte b => obtain ⟨hd, rfl⟩ := storeCell_eq_next.1 he; exact storeCell_eq_next.2 ⟨hd, rfl⟩
      | error => injection he with he; subst he; rfl
      | endOfInput => injection he with he; subst he; rfl
  | jumpIfZero u =>
    obtain ⟨hd, rfl⟩ := exec_jumpIfZero_next.1 he; refine exec_jumpIfZero_next.2 ⟨hd, ?_⟩
    show ({ (if s.tape.get (cellAddr s) = 0 then _ else _ : State) with turns := r } : State) =
      if s.tape.get (cellAddr s) = 0 then _ else _
    split <;> rfl
  | jump u => injection he with he; subst he; rfl
  | endRun z => injection he with he; subst he; rfl
  | illegal9 x => injection he with he; subst he; rfl
  | illegalAB lo x => injection he with he; subst he; rfl
  | illegalCF lo x => injection he with he; subst he; rfl

/-- Under the invariant the core moves only while it is not held: a hold has nothing ready that would release it. -/
theorem Inv.wait_of_mayStep {s : State} (h : Inv s) (hm : coreMayStep s = true) : s.wait = .none := by
  have hr := coreMayStep_running hm
  rcases hw : s.wait with _ | _ | _
  · rfl
  · have := (h.wait_input hw).1; simp [coreMayStep, hr, hw, this] at hm
  · have := (h.wait_output hw).1; simp [coreMayStep, hr, hw, this] at hm

end Sys2Proof.Machine
end

