-- ==== Sys2Proof/Tests/Slice0.lean ====
section
/-! SUPPORT. The model's own tests: words decoded by hand from spec/30_encoding.md R60, R61 and R88, rows of the tables of
spec/95_test_vectors.md, ill-formed terms that the checks refuse, and for every statement with hypotheses a state and
operands that meet them (`witness_<statement>`). -/

namespace Sys2Proof.Tests

open Sys2Proof Sys2Proof.Machine

/-! ## States -/

/-- A RUNNING core with a program loaded, everything else as after reset. -/
def holding (prog : List Instr) : State :=
  { State.reset with
    runState := .running, progLen := BitVec.ofNat 28 prog.length,
    imem := prog.zipIdx.map fun p => (p.2, encode p.1) }

/-- A RUNNING core with one cell set and the data pointer on it. -/
def onCell (dp : TapeIndex) (v : Byte) : State :=
  { State.reset with runState := .running, dp := dp, tape := Tape.set [] dp.toNat v }

/-- Held on a READ at index 0. -/
def heldRead : State := { holding [.read 0] with wait := .input }

/-- Held on a WRITE at index 0. -/
def heldWrite : State := { holding [.write 0] with wait := .output }

/-- The invariant of a one-word program that is RUNNING, whatever its word, with a wait that fits. -/
theorem inv_holding (i : Instr) (hd : decode (encode i) = i) (w : Wait) (events : List InputEvent) (accepts : Nat)
    (turns : List Turn) (hi : w = .input → events = [] ∧ ∃ z, i = .read z)
    (ho : w = .output → accepts = 0 ∧ ∃ z, i = .write z) :
    Inv { holding [i] with wait := w, hostInput := events, hostAccepts := accepts, turns := turns } := by
  have hp := Config.hw_progDepth_pos
  have hf : fetchInstr Config.hw
      { holding [i] with wait := w, hostInput := events, hostAccepts := accepts, turns := turns } = some i := by
    simp [fetchInstr, fetchable, fetchWord, progWord, holding, State.reset, lookupKey, hd]
  refine ⟨⟨⟨List.Pairwise.nil, by simp [holding, State.reset]⟩, ⟨by simp [holding], ?_⟩⟩,
    (by decide : (0 : TapeIndex).toNat < Config.hw.tapeLen), hp, fun _ => rfl, fun h => ?_, fun h => ?_,
    fun _ => ⟨rfl, rfl, rfl⟩, fun h => ?_, fun h => ?_, Nat.le_refl 0, Nat.le_refl 0⟩
  · simp [holding]; omega
  · obtain ⟨he, z, rfl⟩ := hi h; exact ⟨he, z, hf⟩
  · obtain ⟨ha, z, rfl⟩ := ho h; exact ⟨ha, z, hf⟩
  · simp [holding] at h
  · simp [holding] at h

/-- The invariant of a one-word program that is not held. -/
theorem inv_running (i : Instr) (hd : decode (encode i) = i) (events : List InputEvent) (accepts : Nat)
    (turns : List Turn) :
    Inv { holding [i] with hostInput := events, hostAccepts := accepts, turns := turns } :=
  inv_holding i hd .none events accepts turns (by simp) (by simp)

theorem inv_heldRead (turns : List Turn) : Inv { heldRead with turns := turns } :=
  inv_holding (.read 0) (by decide) .input [] 0 turns (fun _ => ⟨rfl, 0, rfl⟩) (by simp)

theorem inv_heldWrite (turns : List Turn) : Inv { heldWrite with turns := turns } :=
  inv_holding (.write 0) (by decide) .output [] 0 turns (by simp) (fun _ => ⟨rfl, 0, rfl⟩)

/-- The invariant of an empty program that is RUNNING. -/
theorem inv_empty : Inv (holding []) :=
  ⟨State.reset_memory_wf _, by decide, Nat.zero_le _, fun _ => rfl, by simp [holding, State.reset],
   by simp [holding, State.reset], fun _ => ⟨rfl, rfl, rfl⟩, by simp [holding], by simp [holding], Nat.le_refl 0,
   Nat.le_refl 0⟩

theorem inv_reset (turns : List Turn) : Inv { State.reset with turns := turns } :=
  ⟨State.reset_memory_wf _, (by decide : (0 : TapeIndex).toNat < Config.hw.tapeLen), Nat.zero_le _,
   by simp [State.reset], by simp [State.reset], by simp [State.reset], by simp [State.reset], by simp [State.reset],
   by simp [State.reset], Nat.le_refl 0, Nat.le_refl 0⟩

/-- A HALTED core. -/
def halted : State := { State.reset with runState := .halted }

/-- A core FAULTED by SUB_PTR 1 at index 0: the end of program P6. -/
def faulted : State := { State.reset with runState := .faulted, faultCause := .pointerRange, faultInfo := 1 }

theorem inv_halted : Inv halted :=
  ⟨State.reset_memory_wf _, by decide, Nat.zero_le _, by simp [halted, State.reset], by simp [halted, State.reset],
   by simp [halted, State.reset], by simp [halted, State.reset], by simp [halted], by simp [halted],
   Nat.le_refl 0, Nat.le_refl 0⟩

theorem inv_faulted : Inv faulted :=
  ⟨State.reset_memory_wf _, by decide, Nat.zero_le _, by simp [faulted, State.reset], by simp [faulted, State.reset],
   by simp [faulted, State.reset], by simp [faulted], fun _ => ⟨by decide, by decide, rfl⟩, by simp [faulted],
   Nat.le_refl 0, Nat.le_refl 0⟩

/-! ## Decoding: words written from R60, R61 and the tables of spec/95_test_vectors.md -/

theorem test_decode_ADD_BYTE : decode 0x0000000A = .addByte 10 := by decide
theorem test_decode_ADD_BYTE_max : decode 0x0FFFFFFF = .addByte 268435455 := by decide
theorem test_decode_SUB_BYTE : decode 0x10000005 = .subByte 5 := by decide
theorem test_decode_ADD_PTR : decode 0x2000752F = .addPtr 29999 := by decide
theorem test_decode_SUB_PTR : decode 0x30000006 = .subPtr 6 := by decide
theorem test_decode_WRITE : decode 0x4000ABCD = .write 0xABCD := by decide
theorem test_decode_READ : decode 0x50000000 = .read 0 := by decide
theorem test_decode_JUMP_IF_ZERO : decode 0x60000032 = .jumpIfZero 50 := by decide
theorem test_decode_JUMP : decode 0x70000003 = .jump 3 := by decide
theorem test_decode_END : decode 0x8FFFFFFF = .endRun 0xFFFFFFF := by decide
theorem test_decode_illegal_9 : decode 0x90000000 = .illegal9 0 := by decide
theorem test_decode_illegal_11 : decode 0xB0000001 = .illegalAB 1 1 := by decide
theorem test_decode_illegal_15 : decode 0xF1234567 = .illegalCF 3 0x1234567 := by decide

theorem test_encode_forms :
    [Instr.addByte 3, .subByte 1, .addPtr 1, .subPtr 1, .write 0, .read 0, .jumpIfZero 7, .jump 1, .endRun 0].map encode =
      [0x00000003, 0x10000001, 0x20000001, 0x30000001, 0x40000000, 0x50000000, 0x60000007, 0x70000001, 0x80000000] := by
  decide

theorem test_decodeTableWord : decodeTableWord 32 0x30000005 = some (.subPtr 5) := by decide

/-- The image file of P1, little-endian (R42), and a file cut short. -/
theorem test_decodeImage :
    decodeImage [3, 0, 0, 0, 0, 0, 0, 0x40, 0, 0, 0, 0x80] = .ok [.addByte 3, .write 0, .endRun 0] ∧
    decodeImage [3, 0, 0] = .error .truncatedWord := ⟨rfl, rfl⟩

/-- R73. -/
theorem test_listing :
    [Instr.addByte 3, .jumpIfZero 7, .endRun 0, .illegalCF 3 0x1234567].map listing =
      ["ADD_BYTE 3", "JUMP_IF_ZERO 7", "END", ".word 0xF1234567"] := by decide

/-! ## Ill-formed terms are refused (R72) -/

theorem test_wellFormed_refuses_count_zero :
    [Instr.addByte 0, .subByte 0, .addPtr 0, .subPtr 0].map Instr.wellFormed = [false, false, false, false] := by decide

theorem test_wellFormed_refuses_operand :
    [Instr.write 5, .read 1, .endRun 0xFFFFFFF].map Instr.wellFormed = [false, false, false] := by decide

theorem test_wellFormed_refuses_illegal :
    [Instr.illegal9 0, .illegalAB 0 0, .illegalCF 3 0].map Instr.wellFormed = [false, false, false] := by decide

/-- Conditions (a) and (b). -/
theorem test_image_refuses_ends :
    [[], [Instr.addByte 1], [.endRun 0, .endRun 0], [.endRun 0, .addByte 1]].map wellFormedImage =
      [false, false, false, false] := by decide

/-- Conditions (c), (d) and (e). -/
theorem test_image_refuses_words :
    [[Instr.illegal9 0, .endRun 0], [.write 1, .endRun 0], [.endRun 1], [.addPtr 0, .endRun 0]].map wellFormedImage =
      [false, false, false, false] := by decide

/-- Condition (f): open and unmatched brackets, and a pair with either operand wrong. -/
theorem test_image_refuses_jumps :
    [[Instr.jumpIfZero 2, .endRun 0], [.jump 0, .endRun 0], [.jumpIfZero 1, .jump 0, .endRun 0],
      [.jumpIfZero 2, .jump 1, .endRun 0]].map wellFormedImage = [false, false, false, false] := by decide

/-! ## One instruction at a time: rows of spec/95_test_vectors.md 2.1 to 2.5 -/

theorem test_ADD_BYTE_wraps : nextOf (exec (.addByte 10) (onCell 0 250)) = some { onCell 0 4 with ip := 1 } := by decide

theorem test_ADD_BYTE_to_zero : nextOf (exec (.addByte 1) (onCell 0 255)) = some { onCell 0 0 with ip := 1 } := by
  decide

theorem test_SUB_BYTE_wraps : nextOf (exec (.subByte 1) (onCell 0 0)) = some { onCell 0 255 with ip := 1 } := by decide

theorem test_SUB_BYTE_max : nextOf (exec (.subByte 268435455) (onCell 0 5)) = some { onCell 0 6 with ip := 1 } := by
  decide

theorem test_ADD_PTR_last_cell :
    nextOf (exec (.addPtr 29999) (holding [])) = some { holding [] with dp := 29999, ip := 1 } := by decide

theorem test_ADD_PTR_top :
    nextOf (exec (.addPtr 1) { holding [] with dp := 29999 }) =
      some { holding [] with dp := 29999, runState := .faulted, faultCause := .pointerRange, faultInfo := 0 } := by decide

theorem test_SUB_PTR_to_zero :
    nextOf (exec (.subPtr 5) { holding [] with dp := 5 }) = some { holding [] with dp := 0, ip := 1 } := by decide

theorem test_SUB_PTR_below :
    nextOf (exec (.subPtr 6) { holding [] with dp := 5 }) =
      some { holding [] with dp := 5, runState := .faulted, faultCause := .pointerRange, faultInfo := 1 } := by decide

theorem test_WRITE_accepted :
    nextOf (exec (.write 0xABCD) { onCell 0 9 with hostAccepts := 1 }) =
      some { onCell 0 9 with hostOutput := [9], ip := 1 } := by decide

theorem test_WRITE_held : nextOf (exec (.write 0) (onCell 0 3)) = some { onCell 0 3 with wait := .output } := by decide

theorem test_READ_byte :
    nextOf (exec (.read 0) { onCell 0 7 with hostInput := [.byte 0x68] }) =
      some { onCell 0 0x68 with hostTaken := 1, ip := 1 } := by decide

theorem test_READ_end :
    nextOf (exec (.read 0) { onCell 0 7 with hostInput := [.endOfInput] }) =
      some { onCell 0 7 with hostTaken := 1, runState := .faulted, faultCause := .inputRead, faultInfo := 1 } := by decide

theorem test_JUMP_IF_ZERO_taken :
    nextOf (exec (.jumpIfZero 7) { onCell 0 0 with ip := 1 }) = some { onCell 0 0 with ip := 7 } := by decide

theorem test_JUMP_IF_ZERO_falls_through :
    nextOf (exec (.jumpIfZero 7) { onCell 0 255 with ip := 1 }) = some { onCell 0 255 with ip := 2 } := by decide

theorem test_JUMP : nextOf (exec (.jump 1) { holding [] with ip := 6 }) = some { holding [] with ip := 1 } := by decide

theorem test_END : nextOf (exec (.endRun 0xFFFFFFF) (holding [])) = some { holding [] with runState := .halted } := by
  decide

theorem test_illegal_9 :
    nextOf (exec (.illegal9 0) (holding [])) =
      some { holding [] with runState := .faulted, faultCause := .illegalOpcode, faultInfo := 9 } := by decide

theorem test_illegal_11 :
    nextOf (exec (.illegalAB 1 0) (holding [])) =
      some { holding [] with runState := .faulted, faultCause := .illegalOpcode, faultInfo := 11 } := by decide

theorem test_illegal_15 :
    nextOf (exec (.illegalCF 3 0x1234567) (holding [])) =
      some { holding [] with runState := .faulted, faultCause := .illegalOpcode, faultInfo := 15 } := by decide

/-! ## The step and the host -/

/-- The first step after reset runs the word placed where the fetch reads. -/
theorem test_step_withFetchWord :
    (nextOf (step (State.reset.withFetchWord 32 0x0000000A))).map (fun t => (t.tape, t.ip)) = some ([(0, 10)], 1) ∧
    (nextOf (step (State.reset.withFetchWord 32 0x90000000))).map (fun t => (t.faultCause, t.faultInfo)) =
      some (.illegalOpcode, 9) := by decide

/-- `PROG_LEN` 0: the first fetch faults (2.5). -/
theorem test_step_empty_program :
    nextOf (step (holding [])) = some { holding [] with runState := .faulted, faultCause := .fetchRange } := by decide

/-- The two status words of 2.7. -/
theorem test_statusWord : statusWord faulted = 0x00000113 ∧ statusWord halted = 0x00000002 := by decide

/-- A second run, begun after a first that emitted `[0x41, 0x42]` and used up one event: its observation holds its own
byte and events only (R180). -/
theorem test_observation_of_a_second_run :
    (nextOf (hostAct Config.hw (.writeReg 1 1) { State.reset with hostOutput := [0x41, 0x42], hostTaken := 1 })).map
      (fun t => (observe { acceptByte 3 (takeEvent t) with runState := .halted }).map
        fun o => (o.output, o.inputTaken)) = some (some ([3], 1)) := by decide

theorem test_answer : nextOf (hostAct Config.hw (.answer (.byte 0x68)) heldRead) =
    some { holding [.read 0] with tape := [(0, 0x68)], ip := 1, hostTaken := 1 } := by decide

/-! ## The translator: the tables of 2.6 and program P4 -/

/-- A capacity for the translator's tests. -/
def cfg : Config := { tapeLen := 30000, progDepth := 100, eofPolicy := .fault }

theorem test_translate_comments_and_runs :
    assemble cfg ['a', '+', 'b', '+', 'c'] = .ok [0x00000002, 0x80000000] ∧
    assemble cfg ['+', '-'] = .ok [0x00000001, 0x10000001, 0x80000000] ∧
    assemble cfg ['.', '.'] = .ok [0x40000000, 0x40000000, 0x80000000] := ⟨rfl, rfl, rfl⟩

theorem test_translate_brackets :
    assemble cfg [] = .ok [0x80000000] ∧
    assemble cfg ['[', ']'] = .ok [0x60000002, 0x70000000, 0x80000000] ∧
    assemble cfg [']'] = .error .unexpectedToken ∧
    assemble cfg ['[', '[', ']'] = .error .unbalancedBrackets := ⟨rfl, rfl, rfl, rfl⟩

/-- P4, `++[>++[>+<-]<-]>>.`. -/
theorem test_translate_P4 :
    assemble cfg ['+', '+', '[', '>', '+', '+', '[', '>', '+', '<', '-', ']', '<', '-', ']', '>', '>', '.'] =
      .ok [0x00000002, 0x6000000D, 0x20000001, 0x00000002, 0x6000000A, 0x20000001, 0x00000001, 0x30000001,
           0x10000001, 0x70000004, 0x30000001, 0x10000001, 0x70000001, 0x20000002, 0x40000000, 0x80000000] := rfl

/-! ## Witnesses: the hypotheses of the statements can be met -/

theorem witness_EveryWordHasExactlyItsRow :
    (∃ r, opcodeTable[11]? = some r ∧ r.holds 0xFFFFFFFF = true) ∧
    (∃ r, opcodeTable[10]? = some r ∧ r.holds 0xC0000000 = false) := ⟨⟨_, rfl, by decide⟩, ⟨_, rfl, by decide⟩⟩

theorem witness_UnusedOperandIsIgnored :
    (opcodeField 0x4000ABCD = opcodeField 0x40000000 ∧ opcodeField 0x4000ABCD = 4) ∧
    (opcodeField 0x5FFFFFFF = opcodeField 0x50000000 ∧ opcodeField 0x5FFFFFFF = 5) ∧
    (opcodeField 0x8FFFFFFF = opcodeField 0x80000000 ∧ opcodeField 0x8FFFFFFF = 8) := by decide

theorem witness_DecodeReadsTheTwoFields :
    ∀ k : Fin 16, (k.val * 2 ^ 28) / 2 ^ 28 = k.val ∧ k.val * 2 ^ 28 < 2 ^ 32 := by decide

theorem witness_ImageFileRoundTrip :
    wordsOfBytes [3, 0, 0, 0x80] = .ok [0x80000003] ∧ ([3] : List Byte).length % 4 ≠ 0 := ⟨rfl, by decide⟩

/-- For the statements on the cell at the data pointer: the first and the last cell, set and not set. -/
theorem witness_cell :
    memRead Config.hw (cellAddr (onCell 0 0)) (onCell 0 0) = some 0 ∧
    memRead Config.hw (cellAddr (onCell 0 1)) (onCell 0 1) = some 1 ∧
    memRead Config.hw (cellAddr (onCell 29999 255)) (onCell 29999 255) = some 255 := by decide

theorem witness_CellArithmeticLaws :
    (onCell 29999 255).runState = .running ∧ (onCell 29999 255).dp.toNat < Config.hw.tapeLen := by decide

theorem witness_AddPtrMovesOrFaults :
    (onCell 29999 1).dp.toNat + (0 : Operand).toNat < Config.hw.tapeLen ∧
    Config.hw.tapeLen ≤ (onCell 29999 1).dp.toNat + (1 : Operand).toNat := by decide

theorem witness_SubPtrMovesOrFaults :
    (onCell 5 1).dp.toNat < Config.hw.tapeLen ∧ (5 : Operand).toNat ≤ (onCell 5 1).dp.toNat ∧
    (onCell 5 1).dp.toNat < (6 : Operand).toNat := by decide

/-- The smallest allowed tape and capacity, and the three ranges of the candidate. -/
theorem witness_PointerUnitChecksBothBounds :
    Config.wf { tapeLen := 1, progDepth := 1, eofPolicy := .zero } ∧
    ((1 : Int) ≥ (1 : Nat) ∧ (-1 : Int) < 0 ∧ (0 : Int) ≤ 0 ∧ (0 : Int) < (1 : Nat)) := by decide

theorem witness_FoldedPointerMoveFaultsAlike :
    (onCell 29999 1).runState = .running ∧ (onCell 29999 1).dp.toNat < Config.hw.tapeLen ∧
    (∀ k : Operand, (Instr.addPtr 1 = .addPtr 1 ∧ Instr.addPtr k = .addPtr k)) ∧
    (∀ k : Operand, (Instr.subPtr 1 = .subPtr 1 ∧ Instr.subPtr k = .subPtr k)) :=
  ⟨by decide, by decide, fun _ => ⟨rfl, rfl⟩, fun _ => ⟨rfl, rfl⟩⟩

theorem witness_WriteEmitsTheCell :
    memRead Config.hw (cellAddr (onCell 0 65)) (onCell 0 65) = some 65 ∧ (onCell 0 65).hostAccepts = 0 ∧
    memRead Config.hw (cellAddr { onCell 0 65 with hostAccepts := 1 }) { onCell 0 65 with hostAccepts := 1 } = some 65 ∧
    ({ onCell 0 65 with hostAccepts := 1 } : State).hostAccepts = 0 + 1 := by decide

theorem witness_ReadTakesOneEvent :
    (onCell 29999 7).hostInput = [] ∧
    [InputEvent.byte 0, .error, .endOfInput].all (fun e =>
      decide ({ onCell 29999 7 with hostInput := [e] : State }.dp.toNat < Config.hw.tapeLen)) = true := by decide

theorem witness_EndOfInputPolicies :
    [EofPolicy.fault, .zero, .allOnes, .unchanged].all (fun p =>
      decide ((onCell 0 7).dp.toNat < ({ tapeLen := 1, progDepth := 1, eofPolicy := p } : Config).tapeLen)) = true := by
  decide

theorem witness_AnswerCompletesTheRead : Inv heldRead ∧ heldRead.wait = .input := ⟨inv_heldRead [], rfl⟩

theorem witness_AcceptCompletesTheWrite : Inv heldWrite ∧ heldWrite.wait = .output := ⟨inv_heldWrite [], rfl⟩

theorem witness_HeldCoreDoesNothing :
    (heldRead.turns = [] ∧ heldRead.wait = .input ∧ heldRead.hostInput = []) ∧
    (heldWrite.turns = [] ∧ heldWrite.wait = .output ∧ heldWrite.hostAccepts = 0) := by decide

/-- A jump to the first index past the program, from a ready core. -/
theorem witness_jumps_past_the_program :
    CoreReady (holding [.jumpIfZero 1]) ∧ (holding [.jumpIfZero 1]).progLen.toNat ≤ (1 : Operand).toNat ∧
    memRead Config.hw (cellAddr (holding [.jumpIfZero 1])) (holding [.jumpIfZero 1]) = some 0 ∧
    CoreReady (holding [.jump 1]) ∧ (holding [.jump 1]).progLen.toNat ≤ (1 : Operand).toNat := by decide

/-- The image of `[]`. -/
def loopImage : List Instr := [.jumpIfZero 2, .jump 0, .endRun 0]

theorem holds_loopImage (s : State) (hl : s.progLen = 3) (hm : s.imem = (holding loopImage).imem) :
    HoldsImage loopImage s := by
  refine ⟨by rw [hl]; rfl, fun i h => ?_⟩
  rw [hm]
  have : i = 0 ∨ i = 1 ∨ i = 2 := by simp [loopImage] at h; omega
  rcases this with rfl | rfl | rfl <;> rfl

theorem witness_LoopPairsReturnToTheirTest :
    wellFormedImage loopImage = true ∧ loopImage.length < 2 ^ 28 ∧ loopImage[0]? = some (.jumpIfZero 2) ∧
    (HoldsImage loopImage (holding loopImage) ∧ CoreReady (holding loopImage) ∧ (holding loopImage).ip.toNat = 0 ∧
      (holding loopImage).tape.get (cellAddr (holding loopImage)) = 0) ∧
    (let s : State := { holding loopImage with tape := [(0, 1)] };
      HoldsImage loopImage s ∧ CoreReady s ∧ s.ip.toNat = 0 ∧ s.tape.get (cellAddr s) ≠ 0) ∧
    (let s : State := { holding loopImage with ip := 1 };
      HoldsImage loopImage s ∧ CoreReady s ∧ s.dp.toNat < Config.hw.tapeLen ∧ s.ip.toNat = 1) :=
  ⟨by decide, by decide, rfl, ⟨holds_loopImage _ rfl rfl, by decide, rfl, by decide⟩,
   ⟨holds_loopImage _ rfl rfl, ⟨rfl, rfl, rfl⟩, rfl, by decide⟩,
   ⟨holds_loopImage _ rfl rfl, ⟨rfl, rfl, rfl⟩, by decide, rfl⟩⟩

theorem witness_IllegalOpcodeIsRaised :
    9 ≤ (opcodeField 0x90000000).toNat ∧ 9 ≤ (opcodeField 0xFFFFFFFF).toNat := by decide

theorem witness_FetchPastTheProgramFaults :
    CoreReady { holding [.write 0] with ip := 1 } ∧
    ({ holding [.write 0] with ip := 1 } : State).progLen.toNat ≤ ({ holding [.write 0] with ip := 1 } : State).ip.toNat := by
  decide

/-- For `FaultsAreExactlyTheFour` and `FaultsArePrecise`: a step into FAULTED of each kind. -/
theorem witness_faults :
    [holding [.addPtr 30000], holding [.subPtr 1], { holding [.read 0] with hostInput := [.error] },
      { holding [.read 0] with hostInput := [.endOfInput] }, holding [.illegal9 0], holding []].all (fun s =>
        decide (CoreReady s ∧ s.dp.toNat < Config.hw.tapeLen ∧
          (nextOf (step s)).map State.runState = some .faulted)) = true := by decide

/-- For their clauses under the invariant: each of the five faults in the core's turn, and the two in the host's. -/
theorem witness_faults_under_Inv :
    (∃ t, Inv { holding [.addPtr 30000] with hostInput := [], hostAccepts := 0, turns := [.core] } ∧
      step { holding [.addPtr 30000] with turns := [.core] } = .next t ∧ t.runState = .faulted) ∧
    (∃ t, Inv { holding [.subPtr 1] with hostInput := [], hostAccepts := 0, turns := [] } ∧
      step (holding [.subPtr 1]) = .next t ∧ t.runState = .faulted) ∧
    (∃ t, Inv { holding [.read 0] with hostInput := [.error], hostAccepts := 0, turns := [] } ∧
      step { holding [.read 0] with hostInput := [.error] } = .next t ∧ t.runState = .faulted) ∧
    (∃ t, Inv { holding [.illegalCF 3 0] with hostInput := [], hostAccepts := 0, turns := [] } ∧
      step (holding [.illegalCF 3 0]) = .next t ∧ t.runState = .faulted) ∧
    (∃ t, Inv (holding []) ∧ step (holding []) = .next t ∧ t.runState = .faulted) ∧
    (∃ t, Inv { heldRead with turns := [.host (.answer .error)] } ∧
      step { heldRead with turns := [.host (.answer .error)] } = .next t ∧ t.runState = .faulted) ∧
    (∃ t, Inv { heldRead with turns := [.host (.answer .endOfInput)] } ∧
      step { heldRead with turns := [.host (.answer .endOfInput)] } = .next t ∧ t.runState = .faulted) :=
  ⟨⟨_, inv_running _ (by decide) [] 0 [.core], rfl, rfl⟩, ⟨_, inv_running _ (by decide) [] 0 [], rfl, rfl⟩,
   ⟨_, inv_running _ (by decide) [.error] 0 [], rfl, rfl⟩, ⟨_, inv_running _ (by decide) [] 0 [], rfl, rfl⟩,
   ⟨_, inv_empty, rfl, rfl⟩, ⟨_, inv_heldRead _, rfl, rfl⟩, ⟨_, inv_heldRead _, rfl, rfl⟩⟩

/-- For the frames and `InstructionsNeitherReadNorWriteTheProgram`: each form answers a next state. -/
theorem witness_frames :
    [Instr.addByte 1, .subByte 1, .addPtr 1, .subPtr 1, .write 0, .read 0, .jumpIfZero 3, .jump 3, .endRun 0,
      .illegal9 0, .illegalAB 0 0, .illegalCF 0 0].all (fun i =>
        (nextOf (exec i { onCell 0 0 with hostAccepts := 1, hostInput := [.byte 1] })).isSome) = true := by decide

theorem witness_StepRunsTheDecodedInstruction :
    CoreReady (holding [.write 0]) ∧ (holding [.write 0]).ip.toNat < (holding [.write 0]).progLen.toNat ∧
    fetchWord Config.hw (holding [.write 0]) = some 0x40000000 ∧
    lookupKey (holding [.write 0]).ip.toNat (holding [.write 0]).imem = some (encode (.write 0)) ∧
    ({ holding [.write 0] with turns := [.core] } : State).turns = .core :: [] := by decide

/-- A plain word, each jump, END, a fault and a hold. -/
theorem witness_SequencingOfTheInstructionPointer :
    [Instr.addByte 1, .jump 5, .jumpIfZero 5, .endRun 0, .subPtr 1, .read 0].all (fun i =>
      decide (CoreReady (holding [i]) ∧ fetchInstr Config.hw (holding [i]) = some i ∧
        (nextOf (step (holding [i]))).isSome = true)) = true ∧
    (let s : State := { holding [.jumpIfZero 5] with tape := [(0, 1)] };
      CoreReady s ∧ s.tape.get (cellAddr s) ≠ 0 ∧ (nextOf (step s)).map State.ip = some 1) := by decide

theorem witness_EveryStepKeepsInv :
    Inv heldWrite ∧ step heldWrite = .next heldWrite ∧
    (∃ t, Inv { holding [.addByte 1] with turns := [.core] } ∧
      step { holding [.addByte 1] with turns := [.core] } = .next t) :=
  ⟨inv_heldWrite [], rfl, _, inv_running (.addByte 1) (by decide) [] 0 [.core], rfl⟩

theorem witness_NoStepStopsUnderInv : Inv heldRead ∧ Inv halted ∧ Inv faulted := ⟨inv_heldRead [], inv_halted, inv_faulted⟩

/-- The image of `,.` held on its READ and on its WRITE. -/
def ioImage : List Instr := [.read 0, .write 0, .endRun 0]

theorem holds_ioImage (s : State) (hl : s.progLen = 3) (hm : s.imem = (holding ioImage).imem) :
    HoldsImage ioImage s := by
  refine ⟨by rw [hl]; rfl, fun i h => ?_⟩
  rw [hm]
  have : i = 0 ∨ i = 1 ∨ i = 2 := by simp [ioImage] at h; omega
  rcases this with rfl | rfl | rfl <;> rfl

/-- A well-formed image in the core's turn, one whose step enters FAULTED, and a held READ and a held WRITE in the
host's turn. -/
theorem witness_WellFormedImageRaisesNoDecodeFault :
    (wellFormedImage loopImage = true ∧ loopImage.length < 2 ^ 28 ∧ HoldsImage loopImage (holding loopImage) ∧
      (holding loopImage).ip.toNat < loopImage.length ∧ (holding loopImage).runState = .running ∧
      (holding loopImage).turns = [] ∧ ∃ t, step (holding loopImage) = .next t) ∧
    (wellFormedImage [.subPtr 1, .endRun 0] = true ∧
      (nextOf (step (holding [.subPtr 1, .endRun 0]))).map State.runState = some .faulted) ∧
    (let s : State := { holding ioImage with wait := .input, turns := [.host (.answer (.byte 7))] };
      wellFormedImage ioImage = true ∧ HoldsImage ioImage s ∧ s.ip.toNat < ioImage.length ∧ s.runState = .running ∧
      fetchInstr Config.hw s = some (.read 0) ∧ ∃ t, step s = .next t ∧ t.ip = 1) ∧
    (let s : State := { holding ioImage with ip := 1, wait := .output, turns := [.host .accept] };
      HoldsImage ioImage s ∧ s.ip.toNat < ioImage.length ∧ s.runState = .running ∧
      fetchInstr Config.hw s = some (.write 0) ∧ ∃ t, step s = .next t ∧ t.ip = 2) :=
  ⟨⟨by decide, by decide, holds_loopImage _ rfl rfl, by decide, rfl, rfl, _, rfl⟩, by decide,
   ⟨by decide, holds_ioImage _ rfl rfl, by decide, rfl, by decide, _, rfl, rfl⟩,
   ⟨holds_ioImage _ rfl rfl, by decide, rfl, by decide, _, rfl, rfl⟩⟩

theorem witness_ResetStateMeetsInv : 2 ≤ ([0x41, 0x42] : List Byte).length ∧ 0 ≤ 1 := by decide

theorem witness_OutputOnlyGrows :
    (nextOf (step { holding [.write 0] with hostAccepts := 1 })).map State.hostOutput = some [0] ∧
    (nextOf (step (holding [.addByte 1]))).map State.hostOutput = some [] := by decide

theorem witness_InputIsTakenInOrder :
    (nextOf (step { holding [.read 0] with hostInput := [.byte 1, .error] })).map State.hostInput = some [.error] ∧
    (nextOf (step { heldRead with turns := [.host (.answer (.byte 1))] })).map State.hostTaken = some 1 ∧
    (nextOf (step (holding [.addByte 1]))).map State.hostTaken = some 0 := by decide

/-- Start, END, a fault, a reset and a power-on, each from a state that meets the invariant. -/
theorem witness_RunStateTransitions :
    (Inv { State.reset with turns := [.host (.writeReg 1 1)] } ∧
      (nextOf (step { State.reset with turns := [.host (.writeReg 1 1)] })).map State.runState = some .running) ∧
    (Inv { holding [.endRun 0] with turns := [] } ∧
      (nextOf (step (holding [.endRun 0]))).map State.runState = some .halted) ∧
    (Inv { holding [.subPtr 1] with turns := [] } ∧
      (nextOf (step (holding [.subPtr 1]))).map State.runState = some .faulted) ∧
    (Inv { heldRead with turns := [.host (.writeReg 1 3)] } ∧
      (nextOf (step { heldRead with turns := [.host (.writeReg 1 3)] })).map State.runState = some .idle) ∧
    (nextOf (step { heldRead with turns := [.host .powerOn] })).map State.runState = some .idle :=
  ⟨⟨inv_reset _, by decide⟩,
   ⟨inv_running (.endRun 0) (by decide) [] 0 [], by decide⟩,
   ⟨inv_running (.subPtr 1) (by decide) [] 0 [], by decide⟩,
   ⟨inv_heldRead _, by decide⟩, by decide⟩

theorem witness_StoppedCoreWaitsForReset :
    (Inv halted ∧ halted.runState = .halted) ∧ (Inv faulted ∧ faulted.runState = .faulted) ∧
    (HostAction.writeReg 1 1 ≠ .powerOn ∧ ∀ v, HostAction.writeReg 1 1 = .writeReg 1 v → v.getLsbD 1 = false) := by
  refine ⟨⟨inv_halted, rfl⟩, ⟨inv_faulted, rfl⟩, by decide, fun v h => ?_⟩
  injection h with _ h; subst h; decide

/-- The control words: reset alone, both bits, start alone, neither. -/
theorem witness_control :
    (2 : Word).getLsbD 1 = true ∧ (3 : Word).getLsbD 1 = true ∧
    ((1 : Word).getLsbD 1 = false ∧ (1 : Word).getLsbD 0 = true ∧ State.reset.runState = .idle) ∧
    ((0xFFFFFFFC : Word).getLsbD 1 = false ∧ (0xFFFFFFFC : Word).getLsbD 0 = false) ∧ halted.runState ≠ .idle := by decide

theorem witness_StartWorksFromIdleOnly : Inv { State.reset with turns := [] } ∧ State.reset.runState = .idle :=
  ⟨inv_reset [], rfl⟩

/-- An index that every capacity has, and one that none has. -/
theorem witness_LoadSetsOneWord :
    State.reset.runState = .idle ∧ 0 < Config.hw.progDepth ∧ Config.hw.progDepth ≤ 268435455 ∧
    halted.runState ≠ .idle ∧ (∃ t, exec (.jump 0) State.reset = .next t) :=
  ⟨rfl, Config.hw_progDepth_pos, Config.hw_progDepth_le, by decide, _, rfl⟩

theorem witness_PowerOnSetsThePowerOnValues : 0 < Config.hw.progDepth := Config.hw_progDepth_pos

theorem witness_TapeReadback :
    halted.runState ≠ .running ∧ 29999 < Config.hw.tapeLen ∧ (holding []).runState = .running ∧
    Config.hw.tapeLen ≤ 30000 := by decide

theorem witness_InteractionsOutsideTheirColumnAreIgnored :
    halted.wait ≠ .input ∧ halted.wait ≠ .output ∧ halted.runState ≠ .idle ∧ (1 : Word).getLsbD 1 = false := by decide

theorem witness_BootLoadsAndStarts :
    ([] : List Word).length ≤ Config.hw.progDepth ∧ ([0x80000000] : List Word).length ≤ Config.hw.progDepth :=
  ⟨Nat.zero_le _, Config.hw_progDepth_pos⟩

theorem witness_EndOfARunIsObserved :
    ((observe halted).isSome = true ∧ (observe faulted).isSome = true ∧ observe (holding []) = none) ∧
    ((1 : Word).getLsbD 0 = true ∧ (1 : Word).getLsbD 1 = false ∧ State.reset.runState = .idle) ∧
    (Inv heldWrite ∧ heldWrite.runState = .running ∧ step heldWrite = .next heldWrite) ∧
    (let s : State := { holding [.write 0] with hostAccepts := 1, turns := [.core] };
      Inv s ∧ s.runState = .running ∧ ∃ t, step s = .next t ∧ runOutput t = [0]) :=
  ⟨by decide, by decide, ⟨inv_heldWrite [], rfl, rfl⟩,
   inv_running (.write 0) (by decide) [] 1 [.core], rfl, _, rfl, rfl⟩

theorem witness_MemWriteThenMemRead :
    memWrite Config.hw 29999 7 State.reset = some { State.reset with tape := [(29999, 7)] } := by decide

theorem witness_EqualCellsAreEqualTapes :
    Tape.wf cfg [(29999, 1)] ∧ ∀ a, a < cfg.tapeLen → Tape.get [(29999, 1)] a = Tape.get [(29999, 1)] a :=
  ⟨by decide, fun _ _ => rfl⟩

theorem witness_TranslationsAreWellFormedImages :
    cfg.wf ∧ translateSource cfg ['[', '-', ']'] = .ok [.jumpIfZero 3, .subByte 1, .jump 0, .endRun 0] :=
  ⟨by decide, rfl⟩

/-- The shortest and the longest folded run in the smallest memory that holds one, the longest run of output tokens, and
the four folding tokens. -/
theorem witness_RunsFoldIntoOneInstruction :
    (1 ≤ 1 ∧ 1 ≤ 268435455 ∧ 268435455 < 2 ^ 28 ∧
      2 ≤ ({ tapeLen := 1, progDepth := 2, eofPolicy := .fault } : Config).progDepth) ∧
    (1 ≤ 268435454 ∧
      268435454 + 1 ≤ ({ tapeLen := 1, progDepth := 268435455, eofPolicy := .fault } : Config).progDepth) ∧
    (Token.increment.foldsTo = some .addByte ∧ Token.decrement.foldsTo = some .subByte ∧
      Token.moveRight.foldsTo = some .addPtr ∧ Token.moveLeft.foldsTo = some .subPtr) :=
  ⟨by decide, by decide, rfl, rfl, rfl, rfl⟩

theorem witness_BracketErrors :
    (∀ g ∈ groupRuns [.loopOpen, .loopClose, .loopClose], g.2 < 2 ^ 28) ∧
    (groupRuns [.loopOpen, .loopClose, .loopClose]).length + 1 ≤ cfg.progDepth ∧
    loopDepth [.loopOpen, .loopClose, .loopClose] 0 = none ∧ loopDepth [.loopOpen] 0 = some (0 + 1) ∧
    loopDepth [.loopOpen, .loopClose] 0 = some 0 := by decide

end Sys2Proof.Tests
end

section
/-! Proofs of the scope statements (spec/00_scope.md): a held core, the memory operations, the parameters. -/

namespace Sys2Proof.Machine

/-! ## A core that may not step -/

theorem step_of_no_turns {s : State} (h : s.turns = []) : step s = coreStep s := by
  simp [step, h]

theorem coreStep_of_not_mayStep {s : State} (h : coreMayStep s = false) : coreStep s = .next s := by
  simp [coreStep, h]

theorem coreMayStep_held_input {s : State} (hw : s.wait = .input) (hi : s.hostInput = []) :
    coreMayStep s = false := by
  cases hr : s.runState <;> simp [coreMayStep, hr, hw, hi]

theorem coreMayStep_held_output {s : State} (hw : s.wait = .output) (ha : s.hostAccepts = 0) :
    coreMayStep s = false := by
  cases hr : s.runState <;> simp [coreMayStep, hr, hw, ha]

/-- Settles O21: neither hold, with nothing ready that would release it, lets the core step. -/
theorem heldCoreDoesNothing : Obligations.HeldCoreDoesNothing := by
  intro s ht held
  have hm : coreMayStep s = false := by
    rcases held with ⟨hw, hi⟩ | ⟨hw, ha⟩
    · exact coreMayStep_held_input hw hi
    · exact coreMayStep_held_output hw ha
  rw [step_of_no_turns ht, coreStep_of_not_mayStep hm]

/-! ## The memory operations on one cell -/

theorem memRead_isSome {c : Config} {a : Nat} {s : State} : (memRead c a s).isSome = true ↔ a < c.tapeLen := by
  simp [memRead]

theorem memWrite_isSome {c : Config} {a : Nat} {v : Byte} {s : State} :
    (memWrite c a v s).isSome = true ↔ a < c.tapeLen := by
  simp [memWrite]

theorem memRead_memWrite_same {c : Config} {a : Nat} {v : Byte} {s t : State} (h : memWrite c a v s = some t) :
    memRead c a t = some v := by
  obtain ⟨ha, rfl⟩ := memWrite_eq_some.1 h
  exact memRead_eq_some.2 ⟨ha, Tape.get_set_same s.tape a v⟩

theorem memRead_memWrite_other {c : Config} {a b : Nat} {v : Byte} {s t : State} (h : memWrite c a v s = some t)
    (hb : b ≠ a) : memRead c b t = memRead c b s := by
  obtain ⟨_, rfl⟩ := memWrite_eq_some.1 h
  simp only [memRead, Tape.get_set_other s.tape hb v]

/-- A write changes the tape alone. -/
theorem memWrite_frame {c : Config} {a : Nat} {v : Byte} {s t : State} (h : memWrite c a v s = some t) :
    t = { s with tape := t.tape } := by
  obtain ⟨_, rfl⟩ := memWrite_eq_some.1 h
  rfl

/-- Settles O55: read after write at the same and at another cell, and the frame of a write. -/
theorem memWriteThenMemRead : Obligations.MemWriteThenMemRead := by
  intro c a v s
  refine ⟨memWrite_isSome, memRead_isSome, fun t h => ⟨memRead_memWrite_same h, fun b hb => ?_, memWrite_frame h⟩⟩
  exact memRead_memWrite_other h hb

/-! ## The parameters -/

/-- Settles O57: the capacity has no body, so its limits come from the bound of the type it is drawn from. -/
theorem parametersOfThisHardware : Obligations.ParametersOfThisHardware :=
  ⟨Config.hw_tapeLen, Config.hw_eofPolicy, Config.hw_wf⟩

end Sys2Proof.Machine
end

section
/-! The host's interactions as a relation: what a write of a host register can do, and what an interaction can do. -/

namespace Sys2Proof.Machine

/-! ## The writes of the host registers -/

theorem writeControl_reset {v : Word} (h1 : v.getLsbD 1 = true) (s : State) : writeControl v s = resetBlock s :=
  if_pos h1

theorem writeControl_start {v : Word} (h1 : v.getLsbD 1 = false) (h0 : v.getLsbD 0 = true) (s : State) :
    writeControl v s = startRun s := by
  rw [writeControl, if_neg (Bool.eq_false_iff.1 h1), if_pos h0]

theorem writeControl_neither {v : Word} (h1 : v.getLsbD 1 = false) (h0 : v.getLsbD 0 = false) (s : State) :
    writeControl v s = s := by
  rw [writeControl, h1, h0]; rfl

theorem startRun_idle {s : State} (h : s.runState = .idle) :
    startRun s = { markStart s with runState := .running } := by
  simp [startRun, isIdle, h]

theorem startRun_of_not_idle {s : State} (h : s.runState ≠ .idle) : startRun s = s := by
  simp [startRun, isIdle, h]

/-- The value a write of PROG_LEN leaves in IDLE. -/
abbrev clampedLen (v : Word) : BitVec 28 := BitVec.ofNat 28 (min v.toNat Config.hw.progDepth)

/-- The clamped value fits the 28 bits, since PROG_DEPTH does (R9). -/
theorem clampedLen_toNat (v : Word) : (clampedLen v).toNat = min v.toNat Config.hw.progDepth := by
  have := Config.hw_progDepth_le
  rw [BitVec.toNat_ofNat, Nat.mod_eq_of_lt (by omega)]

theorem clampedLen_toNat_le (v : Word) : (clampedLen v).toNat ≤ Config.hw.progDepth :=
  clampedLen_toNat v ▸ Nat.min_le_right _ _

theorem writeProgLen_idle (v : Word) {s : State} (h : s.runState = .idle) :
    writeProgLen Config.hw v s = { s with progLen := clampedLen v } := by
  simp [writeProgLen, isIdle, h]

theorem writeProgLen_of_not_idle (v : Word) {s : State} (h : s.runState ≠ .idle) :
    writeProgLen Config.hw v s = s := by
  simp [writeProgLen, isIdle, h]

/-- CONTROL and PROG_LEN are the only registers a write can change (R36). -/
theorem writeReg_other {addr : Nat} (h1 : addr ≠ 1) (h2 : addr ≠ 2) (v : Word) (s : State) :
    writeReg Config.hw addr v s = s := by
  unfold writeReg
  split
  · exact absurd rfl h1
  · exact absurd rfl h2
  · rfl

/-! ## One interaction -/

/-- Everything an interaction of the host can do when it answers a next state, guards included: the host's side of the
machine as a relation, for this hardware's configuration. -/
inductive HostEffect (a : HostAction) (s : State) : State → Prop where
  | unchanged : HostEffect a s s
  | poweredOn (ha : a = .powerOn) : HostEffect a s (powerOn s)
  | reset (v : Word) (ha : a = .writeReg 1 v) (h1 : v.getLsbD 1 = true) : HostEffect a s (resetBlock s)
  | started (v : Word) (ha : a = .writeReg 1 v) (h0 : v.getLsbD 0 = true) (h1 : v.getLsbD 1 = false)
      (hr : s.runState = .idle) : HostEffect a s { markStart s with runState := .running }
  | lengthSet (v : Word) (ha : a = .writeReg 2 v) (hr : s.runState = .idle) :
      HostEffect a s { s with progLen := clampedLen v }
  | loaded (i : Nat) (w : Word) (ha : a = .load i w) (hr : s.runState = .idle) (hi : i < Config.hw.progDepth) :
      HostEffect a s { s with imem := setKey i w s.imem }
  | answered (b : Byte) (ha : a = .answer (.byte b)) (hw : s.wait = .input) (hd : s.dp.toNat < Config.hw.tapeLen) :
      HostEffect a s (advance { takeEvent s with tape := s.tape.set (cellAddr s) b })
  | answeredError (ha : a = .answer .error) (hw : s.wait = .input) : HostEffect a s (raise .inputRead 0 (takeEvent s))
  | answeredEnd (ha : a = .answer .endOfInput) (hw : s.wait = .input) :
      HostEffect a s (raise .inputRead 1 (takeEvent s))
  | accepted (ha : a = .accept) (hw : s.wait = .output) (hd : s.dp.toNat < Config.hw.tapeLen) :
      HostEffect a s (acceptByte (s.tape.get (cellAddr s)) s)

theorem writeControl_effect (v : Word) (s : State) : HostEffect (.writeReg 1 v) s (writeControl v s) := by
  rcases h1 : v.getLsbD 1 with _ | _
  · rcases h0 : v.getLsbD 0 with _ | _
    · rw [writeControl_neither h1 h0]; exact .unchanged
    · rw [writeControl_start h1 h0]
      by_cases hr : s.runState = .idle
      · rw [startRun_idle hr]; exact .started v rfl h0 h1 hr
      · rw [startRun_of_not_idle hr]; exact .unchanged
  · rw [writeControl_reset h1]; exact .reset v rfl h1

theorem writeProgLen_effect (v : Word) (s : State) :
    HostEffect (.writeReg 2 v) s (writeProgLen Config.hw v s) := by
  by_cases hr : s.runState = .idle
  · rw [writeProgLen_idle v hr]; exact .lengthSet v rfl hr
  · rw [writeProgLen_of_not_idle v hr]; exact .unchanged

theorem writeReg_effect (addr : Nat) (v : Word) (s : State) :
    HostEffect (.writeReg addr v) s (writeReg Config.hw addr v s) := by
  by_cases h1 : addr = 1
  · subst h1; exact writeControl_effect v s
  · by_cases h2 : addr = 2
    · subst h2; exact writeProgLen_effect v s
    · rw [writeReg_other h1 h2]; exact .unchanged

/-- Every next state of an interaction is one of its effects. -/
theorem hostAct_effect {a : HostAction} {s t : State} (h : hostAct Config.hw a s = .next t) : HostEffect a s t := by
  cases a with
  | powerOn => injection h with h; exact h ▸ .poweredOn rfl
  | writeReg addr v => injection h with h; exact h ▸ writeReg_effect addr v s
  | load i w =>
    injection h with h; subst h
    simp only [loadWord]
    split
    · rename_i hi; exact .loaded i w rfl (by simpa [isIdle] using hi.1) hi.2
    · exact .unchanged
  | answer e =>
    simp only [hostAct] at h
    split at h
    · rename_i hw
      cases e with
      | byte b => obtain ⟨hd, rfl⟩ := storeCell_eq_next.1 h; exact HostEffect.answered (s := s) b rfl hw hd
      | error => injection h with h; exact h ▸ .answeredError rfl hw
      | endOfInput => injection h with h; exact h ▸ .answeredEnd rfl hw
    · injection h with h; exact h ▸ .unchanged
  | accept =>
    simp only [hostAct] at h
    split at h
    · rename_i hw; obtain ⟨hd, rfl⟩ := finishWrite_eq_next.1 h; exact .accepted rfl hw hd
    · injection h with h; exact h ▸ .unchanged
  | readReg addr => injection h with h; exact h ▸ .unchanged
  | readTape addr => injection h with h; exact h ▸ .unchanged

end Sys2Proof.Machine
end

section
/-! Proofs of the state statements (spec/10_state.md): the invariant. One lemma per operation says when it keeps the
invariant; an instruction's effect and a host's interaction are compositions of the operations. -/

namespace Sys2Proof.Machine

/-! ## The operations of a core that is RUNNING and not held -/

/-- RUNNING and not held, the invariant is about the memories, the pointer, the length, the clear record and the
counts; its other clauses are about holds and about the other run states. -/
theorem Inv.of_running {t : State} (hr : t.runState = .running) (hw : t.wait = .none)
    (hmem : Memory.wf Config.hw t) (hdp : t.dp.toNat < Config.hw.tapeLen)
    (hlen : t.progLen.toNat ≤ Config.hw.progDepth)
    (hrec : t.faultCause = .none ∧ t.faultInfo = 0 ∧ t.faultIp = 0)
    (hcounts : t.outputAtStart ≤ t.hostOutput.length ∧ t.takenAtStart ≤ t.hostTaken) : Inv t where
  memory_wf := hmem
  dp_in_tape := hdp
  len_le_depth := hlen
  wait_running _ := hr
  wait_input h := by simp [hw] at h
  wait_output h := by simp [hw] at h
  record_clear _ := hrec
  record_legal h := by simp [hr] at h
  idle_reset h := by simp [hr] at h
  run_counts := hcounts

theorem Inv.record_of_running {s : State} (h : Inv s) (hr : s.runState = .running) :
    s.faultCause = .none ∧ s.faultInfo = 0 ∧ s.faultIp = 0 :=
  h.record_clear (by simp [hr])

section
variable {s : State} (h : Inv s) (hr : s.runState = .running)
include h hr

/-- An answer ends the hold, so the clauses about holds are met whatever they said before. -/
theorem Inv.after_takeEvent : Inv (takeEvent s) :=
  .of_running hr rfl h.memory_wf h.dp_in_tape h.len_le_depth (h.record_of_running hr)
    ⟨h.run_counts.1, Nat.le_succ_of_le h.run_counts.2⟩

/-- An acceptance ends the hold; the accepted bytes only grow. -/
theorem Inv.after_acceptByte (b : Byte) : Inv (acceptByte b s) :=
  .of_running hr rfl h.memory_wf h.dp_in_tape h.len_le_depth (h.record_of_running hr)
    ⟨by simpa using Nat.le_succ_of_le h.run_counts.1, h.run_counts.2⟩

variable (hw : s.wait = .none)
include hw

theorem Inv.after_jumpTo (u : ProgIndex) : Inv (jumpTo u s) :=
  .of_running hr hw h.memory_wf h.dp_in_tape h.len_le_depth (h.record_of_running hr) h.run_counts

theorem Inv.after_advance : Inv (advance s) := h.after_jumpTo hr hw (s.ip + 1)

theorem Inv.after_setDp {k : Nat} (hk : k < Config.hw.tapeLen) : Inv (setDp (BitVec.ofNat 15 k) s) :=
  .of_running hr hw h.memory_wf (Nat.lt_of_le_of_lt (by simpa using Nat.mod_le k _) hk) h.len_le_depth
    (h.record_of_running hr) h.run_counts

/-- The cell that is written exists, since the data pointer is inside the tape. -/
theorem Inv.after_setCell (v : Byte) : Inv { s with tape := s.tape.set (cellAddr s) v } :=
  .of_running hr hw ⟨Tape.wf_set h.memory_wf.1 h.dp_in_tape, h.memory_wf.2⟩ h.dp_in_tape h.len_le_depth
    (h.record_of_running hr) h.run_counts

theorem Inv.with_hostInput (events : List InputEvent) : Inv { s with hostInput := events } :=
  .of_running hr hw h.memory_wf h.dp_in_tape h.len_le_depth (h.record_of_running hr) h.run_counts

theorem Inv.with_hostAccepts (k : Nat) : Inv { s with hostAccepts := k } :=
  .of_running hr hw h.memory_wf h.dp_in_tape h.len_le_depth (h.record_of_running hr) h.run_counts

/-! ## The ends of a run and the holds -/

theorem Inv.after_haltCore : Inv (haltCore s) where
  memory_wf := h.memory_wf
  dp_in_tape := h.dp_in_tape
  len_le_depth := h.len_le_depth
  wait_running hn := absurd hw hn
  wait_input hn := by simp [hw] at hn
  wait_output hn := by simp [hw] at hn
  record_clear _ := h.record_of_running hr
  record_legal hn := by simp at hn
  idle_reset hn := by simp at hn
  run_counts := h.run_counts

omit hr in
/-- A fault writes a legal record when its cause is one of R160 and its info one that R30 lists for it. -/
theorem Inv.after_raise {cause : FaultCause} {info : BitVec 4} (hc : cause ≠ .none) (hi : cause.infoLegal info = true) :
    Inv (raise cause info s) where
  memory_wf := h.memory_wf
  dp_in_tape := h.dp_in_tape
  len_le_depth := h.len_le_depth
  wait_running hn := absurd hw hn
  wait_input hn := by simp [hw] at hn
  wait_output hn := by simp [hw] at hn
  record_clear hn := absurd rfl hn
  record_legal _ := ⟨hc, hi, rfl⟩
  idle_reset hn := by simp at hn
  run_counts := h.run_counts

omit hw in
/-- A READ that finds no event holds the core: the instruction at `ip` is that READ. -/
theorem Inv.hold_input {z : Operand} (hf : fetchInstr Config.hw s = some (.read z)) (he : s.hostInput = []) :
    Inv { s with wait := .input } where
  memory_wf := h.memory_wf
  dp_in_tape := h.dp_in_tape
  len_le_depth := h.len_le_depth
  wait_running _ := hr
  wait_input _ := ⟨he, z, hf⟩
  wait_output hn := by simp at hn
  record_clear := h.record_clear
  record_legal := h.record_legal
  idle_reset := h.idle_reset
  run_counts := h.run_counts

omit hw in
/-- A WRITE whose byte is not taken holds the core: the instruction at `ip` is that WRITE. -/
theorem Inv.hold_output {z : Operand} (hf : fetchInstr Config.hw s = some (.write z)) (ha : s.hostAccepts = 0) :
    Inv { s with wait := .output } where
  memory_wf := h.memory_wf
  dp_in_tape := h.dp_in_tape
  len_le_depth := h.len_le_depth
  wait_running _ := hr
  wait_input hn := by simp at hn
  wait_output _ := ⟨ha, z, hf⟩
  record_clear := h.record_clear
  record_legal := h.record_legal
  idle_reset := h.idle_reset
  run_counts := h.run_counts

/-! ## The core's move -/

/-- Every effect of the instruction at `ip` keeps the invariant. -/
theorem Inv.after_effect {i : Instr} {t : State} (hf : fetchInstr Config.hw s = some i) (he : Effect i s t) : Inv t := by
  have took (rest : List InputEvent) : Inv (takeEvent { s with hostInput := rest }) :=
    (h.with_hostInput hr hw rest).after_takeEvent hr
  cases he with
  | added n _ _ => exact (h.after_setCell hr hw _).after_advance hr hw
  | subtracted n _ _ => exact (h.after_setCell hr hw _).after_advance hr hw
  | moved k hk _ => exact (h.after_setDp hr hw hk).after_advance hr hw
  | above _ => exact h.after_raise hw (by decide) (by decide)
  | below n _ _ => exact h.after_raise hw (by decide) (by decide)
  | offered z hi _ ha => exact h.hold_output hr (hi ▸ hf) ha
  | accepted z _ _ k _ => exact (h.with_hostAccepts hr hw k).after_acceptByte hr _
  | requested z hi he => exact h.hold_input hr (hi ▸ hf) he
  | readByte z _ _ b rest _ => exact ((took rest).after_setCell hr rfl b).after_advance hr rfl
  | readError z _ rest _ => exact (took rest).after_raise rfl (by decide) (by decide)
  | readEnd z _ rest _ => exact (took rest).after_raise rfl (by decide) (by decide)
  | jumped u _ => exact h.after_jumpTo hr hw u
  | passed u _ _ => exact h.after_advance hr hw
  | halted z _ => exact h.after_haltCore hr hw
  | illegal _ ho => exact h.after_raise hw (by decide) (decide_eq_true ho)

end

theorem Inv.after_coreStep {s t : State} (h : Inv s) (hs : coreStep s = .next t) : Inv t := by
  rcases coreStep_cases hs with ⟨_, rfl⟩ | ⟨hm, _, rfl⟩ | ⟨hm, _, i, hf, he⟩
  · exact h
  · exact h.after_raise (h.wait_of_mayStep hm) (by decide) (by decide)
  · exact h.after_effect (coreMayStep_running hm) (h.wait_of_mayStep hm) hf (exec_effect he)

/-! ## The host's interactions -/

/-- In IDLE the pointers, the tape and the record are 0 and nothing is held, so the invariant is about program memory,
the length and the counts. -/
theorem Inv.of_idle {t : State} (hr : t.runState = .idle) (hw : t.wait = .none)
    (hzero : t.ip = 0 ∧ t.dp = 0 ∧ t.tape = []) (himem : IMem.wf Config.hw t.imem)
    (hlen : t.progLen.toNat ≤ Config.hw.progDepth)
    (hrec : t.faultCause = .none ∧ t.faultInfo = 0 ∧ t.faultIp = 0)
    (hcounts : t.outputAtStart ≤ t.hostOutput.length ∧ t.takenAtStart ≤ t.hostTaken) : Inv t where
  memory_wf := ⟨hzero.2.2 ▸ (State.reset_memory_wf _).1, himem⟩
  dp_in_tape := by rw [hzero.2.1]; decide
  len_le_depth := hlen
  wait_running hn := absurd hw hn
  wait_input hn := by simp [hw] at hn
  wait_output hn := by simp [hw] at hn
  record_clear _ := hrec
  record_legal hn := by simp [hr] at hn
  idle_reset _ := hzero
  run_counts := hcounts

theorem Inv.wait_of_not_running {s : State} (h : Inv s) (hr : s.runState ≠ .running) : s.wait = .none :=
  not_not.1 fun hw => hr (h.wait_running hw)

theorem Inv.after_resetBlock {s : State} (h : Inv s) : Inv (resetBlock s) :=
  .of_idle rfl rfl ⟨rfl, rfl, rfl⟩ h.memory_wf.2 h.len_le_depth ⟨rfl, rfl, rfl⟩ h.run_counts

theorem Inv.after_powerOn {s : State} (h : Inv s) : Inv (powerOn s) :=
  .of_idle rfl rfl ⟨rfl, rfl, rfl⟩ (State.reset_memory_wf _).2 (Nat.zero_le _) ⟨rfl, rfl, rfl⟩ h.run_counts

section
variable {s : State} (h : Inv s) (hr : s.runState = .idle)
include h hr

theorem Inv.record_of_idle : s.faultCause = .none ∧ s.faultInfo = 0 ∧ s.faultIp = 0 :=
  h.record_clear (by simp [hr])

theorem Inv.wait_of_idle : s.wait = .none :=
  h.wait_of_not_running (by simp [hr])

/-- A START sets the marks to what the host has accepted and used up. -/
theorem Inv.after_start : Inv { markStart s with runState := .running } :=
  .of_running rfl (h.wait_of_idle hr) h.memory_wf h.dp_in_tape h.len_le_depth (h.record_of_idle hr)
    ⟨Nat.le_refl _, Nat.le_refl _⟩

theorem Inv.with_progLen {len : BitVec 28} (hlen : len.toNat ≤ Config.hw.progDepth) :
    Inv { s with progLen := len } :=
  .of_idle hr (h.wait_of_idle hr) (h.idle_reset hr) h.memory_wf.2 hlen (h.record_of_idle hr) h.run_counts

theorem Inv.after_load {i : Nat} (hi : i < Config.hw.progDepth) (w : Word) :
    Inv { s with imem := setKey i w s.imem } :=
  .of_idle hr (h.wait_of_idle hr) (h.idle_reset hr) (IMem.wf_setKey h.memory_wf.2 hi) h.len_le_depth
    (h.record_of_idle hr) h.run_counts

end

theorem Inv.running_of_input {s : State} (h : Inv s) (hw : s.wait = .input) : s.runState = .running :=
  h.wait_running (by simp [hw])

theorem Inv.running_of_output {s : State} (h : Inv s) (hw : s.wait = .output) : s.runState = .running :=
  h.wait_running (by simp [hw])

/-- Every effect of an interaction keeps the invariant. -/
theorem Inv.after_hostEffect {a : HostAction} {s t : State} (h : Inv s) (he : HostEffect a s t) : Inv t := by
  have took (hw : s.wait = .input) : Inv (takeEvent s) := h.after_takeEvent (h.running_of_input hw)
  cases he with
  | unchanged => exact h
  | poweredOn _ => exact h.after_powerOn
  | reset v _ _ => exact h.after_resetBlock
  | started v _ _ _ hr => exact h.after_start hr
  | lengthSet v _ hr => exact h.with_progLen hr (clampedLen_toNat_le v)
  | loaded i w _ hr hi => exact h.after_load hr hi w
  | answered b _ hw _ =>
    have hr := h.running_of_input hw
    exact ((took hw).after_setCell hr rfl b).after_advance hr rfl
  | answeredError _ hw => exact (took hw).after_raise rfl (by decide) (by decide)
  | answeredEnd _ hw => exact (took hw).after_raise rfl (by decide) (by decide)
  | accepted _ hw _ => exact h.after_acceptByte (h.running_of_output hw) _

/-! ## Every step -/

/-- Settles O37: a step is the core's move or one interaction, on the state without the turn it uses up. -/
theorem everyStepKeepsInv : Obligations.EveryStepKeepsInv := by
  intro s t h hs
  rcases step_cases hs with ⟨r, hc, _⟩ | ⟨a, r, _, ha⟩
  · exact (h.with_turns r).after_coreStep hc
  · exact (h.with_turns r).after_hostEffect (hostAct_effect ha)

end Sys2Proof.Machine
end

section
/-! Proofs of the state statements (spec/10_state.md): an instruction and program memory, steps that do not stop, the
run state. -/

namespace Sys2Proof.Machine

/-! ## Instructions and program memory -/

/-- The state with other contents of program memory and another `PROG_LEN`. -/
def State.withProgram (m : IMem) (len : BitVec 28) (s : State) : State := { s with imem := m, progLen := len }

/-- An outcome with its next state changed; a stop stays the same stop. -/
def mapNext (f : State → State) : Result → Result
  | .next t => .next (f t)
  | .fault r => .fault r
  | .refused r => .refused r

section
variable (m : IMem) (len : BitVec 28) (s : State)

theorem withCell_withProgram (c : Config) {f g : Byte → Result}
    (h : ∀ v, f v = mapNext (.withProgram m len) (g v)) :
    withCell c (s.withProgram m len) f = mapNext (.withProgram m len) (withCell c s g) := by
  by_cases hd : s.dp.toNat < c.tapeLen
  · rw [withCell_of_lt hd, withCell_of_lt (s := s.withProgram m len) hd]; exact h _
  · rw [withCell_of_le (Nat.not_lt.1 hd), withCell_of_le (s := s.withProgram m len) (Nat.not_lt.1 hd)]; rfl

theorem storeCell_withProgram (c : Config) (v : Byte) :
    storeCell c v (s.withProgram m len) = mapNext (.withProgram m len) (storeCell c v s) := by
  by_cases hd : s.dp.toNat < c.tapeLen
  · rw [storeCell_of_lt hd, storeCell_of_lt (s := s.withProgram m len) hd]; rfl
  · rw [storeCell_of_le (Nat.not_lt.1 hd), storeCell_of_le (s := s.withProgram m len) (Nat.not_lt.1 hd)]; rfl

theorem movePtr_withProgram (c : Config) (x : Int) :
    movePtr c x (s.withProgram m len) = (movePtr c x s).withProgram m len := by
  unfold movePtr
  split
  · rfl
  · split <;> rfl

theorem offerByte_withProgram (b : Byte) :
    offerByte b (s.withProgram m len) = (offerByte b s).withProgram m len := by
  rcases offerByte_cases b s with ⟨ha, e⟩ | ⟨k, ha, e⟩
  · rw [e, offerByte_held (s := s.withProgram m len) ha]; rfl
  · rw [e, offerByte_accepted (s := s.withProgram m len) ha]; rfl

theorem finishRead_withProgram (e : InputEvent) :
    finishRead Config.hw e (s.withProgram m len) = mapNext (.withProgram m len) (finishRead Config.hw e s) := by
  cases e with
  | byte b => exact storeCell_withProgram m len (takeEvent s) Config.hw b
  | endOfInput => rfl
  | error => rfl

/-- With other contents of program memory and another length the same instruction does the same, stops included. -/
theorem exec_withProgram (i : Instr) :
    exec i (s.withProgram m len) = mapNext (.withProgram m len) (exec i s) := by
  cases i with
  | addByte n => exact withCell_withProgram m len s _ fun v => storeCell_withProgram m len s _ _
  | subByte n => exact withCell_withProgram m len s _ fun v => storeCell_withProgram m len s _ _
  | addPtr n => exact congrArg _ (movePtr_withProgram m len s _ _)
  | subPtr n => exact congrArg _ (movePtr_withProgram m len s _ _)
  | write z => exact withCell_withProgram m len s _ fun b => congrArg _ (offerByte_withProgram m len s b)
  | read z =>
    rcases he : s.hostInput with _ | ⟨e, rest⟩
    · rw [exec_read_none he, exec_read_none (s := s.withProgram m len) he]; rfl
    · rw [exec_read_event he, exec_read_event (s := s.withProgram m len) he]
      exact finishRead_withProgram m len { s with hostInput := rest } e
  | jumpIfZero u =>
    refine withCell_withProgram m len s _ fun v => ?_
    rcases cellIsZero v with _ | _ <;> rfl
  | jump u => rfl
  | endRun z => rfl
  | illegal9 x => rfl
  | illegalAB lo x => rfl
  | illegalCF lo x => rfl

end

/-- What no instruction writes: program memory, its length and the turns. -/
theorem exec_program_frame {i : Instr} {s t : State} (h : exec i s = .next t) :
    t.imem = s.imem ∧ t.imemDraw = s.imemDraw ∧ t.progLen = s.progLen ∧ t.turns = s.turns := by
  cases exec_effect h <;> exact ⟨rfl, rfl, rfl, rfl⟩

/-- Only the pointer moves change the data pointer. -/
theorem exec_dp {i : Instr} {s t : State} (h : exec i s = .next t) (hi : ∀ n, i ≠ .addPtr n ∧ i ≠ .subPtr n) :
    t.dp = s.dp := by
  cases exec_effect h with
  | moved k _ hm =>
    rcases hm with ⟨n, rfl, _⟩ | ⟨n, rfl, _⟩
    · exact absurd rfl (hi n).1
    · exact absurd rfl (hi n).2
  | _ => rfl

/-- Settles O33: an instruction commutes with a change of program memory and its length, and writes neither. -/
theorem instructionsNeitherReadNorWriteTheProgram : Obligations.InstructionsNeitherReadNorWriteTheProgram := by
  intro i s t h
  obtain ⟨himem, hdraw, hlen, hturns⟩ := exec_program_frame h
  refine ⟨himem, hdraw, hlen, hturns, fun m len => ?_, exec_dp h⟩
  exact (exec_withProgram m len s i).trans (congrArg (mapNext _) h)

/-! ## No step stops -/

/-- Every word that is fetched exists, since `PROG_LEN` is at most PROG_DEPTH. -/
theorem Inv.dispatch_isNext {s : State} (h : Inv s) : ∃ t, dispatch s = .next t := by
  unfold dispatch
  split
  · rename_i hf
    have hlt : s.ip.toNat < s.progLen.toNat := by simpa [fetchable] using hf
    obtain ⟨w, hw⟩ := Option.isSome_iff_exists.1 (progWord_isSome (s := s) (hlt.trans_le h.len_le_depth))
    rw [fetchWord, hw]
    exact exec_isNext (decode w) h.dp_in_tape
  · exact ⟨_, rfl⟩

theorem Inv.coreStep_isNext {s : State} (h : Inv s) : ∃ t, coreStep s = .next t := by
  unfold coreStep
  split
  · exact h.dispatch_isNext
  · exact ⟨_, rfl⟩

/-- Only an answer and an acceptance use a cell, the one at the data pointer. -/
theorem hostAct_isNext (a : HostAction) {s : State} (hd : s.dp.toNat < Config.hw.tapeLen) :
    ∃ t, hostAct Config.hw a s = .next t := by
  cases a with
  | answer e =>
    simp only [hostAct]
    split
    · exact finishRead_isNext e hd
    · exact ⟨_, rfl⟩
  | accept =>
    simp only [hostAct]
    split
    · exact ⟨_, finishWrite_eq_next.2 ⟨hd, rfl⟩⟩
    · exact ⟨_, rfl⟩
  | powerOn => exact ⟨_, rfl⟩
  | writeReg addr v => exact ⟨_, rfl⟩
  | load i w => exact ⟨_, rfl⟩
  | readReg addr => exact ⟨_, rfl⟩
  | readTape addr => exact ⟨_, rfl⟩

/-- Settles O38: whoever moves, the cell and the word that the move needs exist. -/
theorem noStepStopsUnderInv : Obligations.NoStepStopsUnderInv := by
  intro s h
  unfold step
  split
  · exact h.coreStep_isNext
  · exact (h.with_turns _).coreStep_isNext
  · exact hostAct_isNext _ h.dp_in_tape

/-! ## The run state -/

/-- An instruction leaves the run state, or it is END, or it faults. -/
theorem exec_runState {i : Instr} {s t : State} (h : exec i s = .next t) :
    t.runState = s.runState ∨ (t.runState = .halted ∧ ∃ z, i = .endRun z) ∨
      (t.runState = .faulted ∧ t.faultCause ≠ .none) := by
  cases exec_effect h with
  | halted z hi => exact .inr (.inl ⟨rfl, z, hi⟩)
  | above _ => exact .inr (.inr ⟨rfl, by simp⟩)
  | below n _ _ => exact .inr (.inr ⟨rfl, by simp⟩)
  | readError z _ rest _ => exact .inr (.inr ⟨rfl, by simp⟩)
  | readEnd z _ rest _ => exact .inr (.inr ⟨rfl, by simp⟩)
  | illegal _ _ => exact .inr (.inr ⟨rfl, by simp⟩)
  | _ => exact .inl rfl

/-- The core's move leaves the run state, or it is an END or a fault of a RUNNING core. -/
theorem coreStep_runState {s t : State} (h : coreStep s = .next t) :
    t.runState = s.runState ∨
    (s.runState = .running ∧ t.runState = .halted ∧ ∃ z, fetchInstr Config.hw s = some (.endRun z)) ∨
    (s.runState = .running ∧ t.runState = .faulted ∧ t.faultCause ≠ .none) := by
  rcases coreStep_cases h with ⟨_, rfl⟩ | ⟨hm, _, rfl⟩ | ⟨hm, _, i, hf, he⟩
  · exact .inl rfl
  · exact .inr (.inr ⟨coreMayStep_running hm, rfl, by simp⟩)
  · have hr := coreMayStep_running hm
    rcases exec_runState he with e | ⟨ht, z, rfl⟩ | ⟨ht, hc⟩
    · exact .inl e
    · exact .inr (.inl ⟨hr, ht, z, hf⟩)
    · exact .inr (.inr ⟨hr, ht, hc⟩)

/-- An interaction leaves the run state, or it is a START from IDLE, an answer that faults the RUNNING core that is
held, a power-on or a reset. -/
theorem Inv.hostAct_runState {a : HostAction} {s t : State} (hs : Inv s) (h : hostAct Config.hw a s = .next t) :
    t.runState = s.runState ∨
    (s.runState = .idle ∧ t.runState = .running ∧
      ∃ v, a = .writeReg 1 v ∧ v.getLsbD 0 = true ∧ v.getLsbD 1 = false) ∨
    (s.runState = .running ∧ t.runState = .faulted ∧ t.faultCause ≠ .none) ∨
    (t.runState = .idle ∧ (a = .powerOn ∨ ∃ v, a = .writeReg 1 v ∧ v.getLsbD 1 = true)) := by
  cases hostAct_effect h with
  | poweredOn ha => exact .inr (.inr (.inr ⟨rfl, .inl ha⟩))
  | reset v ha h1 => exact .inr (.inr (.inr ⟨rfl, .inr ⟨v, ha, h1⟩⟩))
  | started v ha h0 h1 hr => exact .inr (.inl ⟨hr, rfl, v, ha, h0, h1⟩)
  | answeredError _ hw => exact .inr (.inr (.inl ⟨hs.running_of_input hw, rfl, by simp⟩))
  | answeredEnd _ hw => exact .inr (.inr (.inl ⟨hs.running_of_input hw, rfl, by simp⟩))
  | _ => exact .inl rfl

/-- Settles O42: what the core's move and what an interaction do to the run state. -/
theorem runStateTransitions : Obligations.RunStateTransitions := by
  intro s t h hs hne
  rcases step_cases hs with ⟨r, hc, _⟩ | ⟨a, r, hturns, ha⟩
  · rcases coreStep_runState hc with e | halted | faulted
    · exact absurd e hne
    · exact .inr (.inl halted)
    · exact .inr (.inr (.inl faulted))
  · rcases (h.with_turns r).hostAct_runState ha with
      e | ⟨hi, ht, v, rfl, h0, h1⟩ | faulted | ⟨ht, rfl | ⟨v, rfl, h1⟩⟩
    · exact absurd e hne
    · exact .inl ⟨hi, ht, v, r, hturns, h0, h1⟩
    · exact .inr (.inr (.inl faulted))
    · exact .inr (.inr (.inr ⟨ht, r, .inl hturns⟩))
    · exact .inr (.inr (.inr ⟨ht, r, .inr ⟨v, hturns, h1⟩⟩))

end Sys2Proof.Machine
end

section
/-! Proofs of the state statements (spec/10_state.md): the canonical form of the tape. -/

namespace Sys2Proof.Machine

/-- Where the keys rise, an entry is listed exactly when a lookup finds it. -/
theorem mem_iff_lookupKey {α : Type} {k : Nat} {v : α} {m : List (Nat × α)} (h : keysRise m) :
    (k, v) ∈ m ↔ lookupKey k m = some v := by
  induction m with
  | nil => simp [lookupKey]
  | cons p rest ih =>
    obtain ⟨hp, hr⟩ := List.pairwise_cons.1 h
    by_cases hk : p.1 = k
    · have hnot : (k, v) ∉ rest := fun hm => by have := hp _ hm; simp [hk] at this
      simp [lookupKey, hk, hnot, Prod.ext_iff, eq_comm]
    · have hne : (k, v) ≠ p := fun e => hk (by simp [← e])
      simp [lookupKey, hk, hne, ih hr]

/-- Lists with rising keys and the same entries are the same list. -/
theorem eq_of_keysRise {α : Type} {m m' : List (Nat × α)} (h : keysRise m) (h' : keysRise m')
    (hmem : ∀ p, p ∈ m ↔ p ∈ m') : m = m' := by
  have : Std.Antisymm fun p q : Nat × α => p.1 < q.1 := ⟨fun _ _ hpq hqp => absurd hqp (Nat.lt_asymm hpq)⟩
  have : Std.Irrefl fun p q : Nat × α => p.1 < q.1 := ⟨fun _ => Nat.lt_irrefl _⟩
  exact h.eq_of_mem_iff h' hmem

/-- In canonical form an entry is listed exactly when its index is a cell that holds its value, and that is not 0. -/
theorem Tape.mem_iff_get {c : Config} {m : Tape} (h : Tape.wf c m) {a : Nat} {v : Byte} :
    (a, v) ∈ m ↔ a < c.tapeLen ∧ v ≠ 0 ∧ m.get a = v := by
  constructor
  · intro hm
    obtain ⟨ha, hv⟩ := h.2 _ hm
    exact ⟨ha, hv, by simp [Tape.get, (mem_iff_lookupKey h.1).1 hm]⟩
  · rintro ⟨_, hv, hg⟩
    refine (mem_iff_lookupKey h.1).2 ?_
    rcases hl : lookupKey a m with _ | w
    · exact absurd (by simp [← hg, Tape.get, hl]) hv
    · simpa [Tape.get, hl] using hg

/-- Settles O56: the cells say which entries are listed, and rising keys say in which order. -/
theorem equalCellsAreEqualTapes : Obligations.EqualCellsAreEqualTapes := by
  intro c m m' h h' hcells
  refine eq_of_keysRise h.1 h'.1 fun ⟨a, v⟩ => ?_
  rw [Tape.mem_iff_get h, Tape.mem_iff_get h']
  exact and_congr_right fun ha => by rw [hcells a ha]

end Sys2Proof.Machine
end

section
/-! Proofs of the state statements (spec/10_state.md): reset, power-on, the host registers and the tape port. -/

namespace Sys2Proof.Machine

/-! ## Reset and power-on -/

/-- Settles O36: reset leaves IDLE with everything 0, so of the invariant only the two counts are left to the host. -/
theorem resetStateMeetsInv : Obligations.ResetStateMeetsInv := by
  intro events accepts output taken outputMark takenMark turns hout htaken
  exact .of_idle rfl rfl ⟨rfl, rfl, rfl⟩ (State.reset_memory_wf _).2 (Nat.zero_le _) ⟨rfl, rfl, rfl⟩ ⟨hout, htaken⟩

/-- After a power-on nothing is loaded, so every index reads the free value of that power-on. -/
theorem progWord_powerOn {c : Config} {i : Nat} (hi : i < c.progDepth) (s : State) :
    progWord c i (powerOn s) = some (Config.powerOnWord (s.imemDraw + 1) i) :=
  if_pos hi

/-- Settles O45: field by field, and program memory by `progWord_powerOn`. -/
theorem powerOnSetsThePowerOnValues : Obligations.PowerOnSetsThePowerOnValues := fun s =>
  ⟨powerOn s, rfl, rfl, fun _ hi => progWord_powerOn hi s⟩

/-! ## The registers the host reads -/

theorem readReg_progLen (s : State) : (readReg 2 s).toNat = s.progLen.toNat :=
  BitVec.toNat_setWidth_of_le (by decide)

theorem readReg_ip (s : State) : (readReg 3 s).toNat = s.ip.toNat :=
  BitVec.toNat_setWidth_of_le (by decide)

theorem readReg_dp (s : State) : (readReg 4 s).toNat = s.dp.toNat :=
  BitVec.toNat_setWidth_of_le (by decide)

theorem readReg_faultIp (s : State) : (readReg 5 s).toNat = s.faultIp.toNat :=
  BitVec.toNat_setWidth_of_le (by decide)

theorem readReg_past_map {addr : Nat} (h : 6 ≤ addr) (s : State) : readReg addr s = 0 := by
  obtain ⟨n, rfl⟩ := Nat.exists_eq_add_of_le' h
  rfl

theorem fetchable_iff (s : State) : fetchable s = true ↔ s.ip.toNat < s.progLen.toNat :=
  decide_eq_true_iff

/-! ## The registers the host writes -/

theorem hostAct_writeProgLen_idle (v : Word) {s : State} (h : s.runState = .idle) :
    hostAct Config.hw (.writeReg 2 v) s = .next { s with progLen := clampedLen v } :=
  next_eq_next.2 (writeProgLen_idle v h).symm

theorem hostAct_writeProgLen_of_not_idle (v : Word) {s : State} (h : s.runState ≠ .idle) :
    hostAct Config.hw (.writeReg 2 v) s = .next s :=
  next_eq_next.2 (writeProgLen_of_not_idle v h).symm

theorem hostAct_writeReg_other {addr : Nat} (h1 : addr ≠ 1) (h2 : addr ≠ 2) (v : Word) (s : State) :
    hostAct Config.hw (.writeReg addr v) s = .next s :=
  next_eq_next.2 (writeReg_other h1 h2 v s).symm

/-- Settles O48: the write in IDLE leaves `clampedLen`, which fits the register. -/
theorem progLenIsClamped : Obligations.ProgLenIsClamped := fun v s =>
  ⟨fun hr => ⟨_, hostAct_writeProgLen_idle v hr, clampedLen_toNat v, rfl, readReg_progLen _⟩,
    hostAct_writeProgLen_of_not_idle v, rfl, rfl, fetchable_iff s⟩

/-! ## STATUS: the fields of the appended word, from the right -/

section
variable (s : State)

theorem statusWord_runState : (statusWord s).extractLsb' 0 2 = s.runState.code :=
  BitVec.extractLsb'_append_eq_right

theorem statusWord_wait : (statusWord s).extractLsb' 2 2 = s.wait.code :=
  (BitVec.extractLsb'_append_eq_of_le (w := 2) (Nat.le_refl 2)).trans BitVec.extractLsb'_append_eq_right

/-- From bit 4 on STATUS is the fault's cause and info with the reserved bits above them. -/
theorem statusWord_from_cause {n len : Nat} (h : 4 ≤ n) :
    (statusWord s).extractLsb' n len = (0#20 ++ s.faultInfo ++ s.faultCause.code).extractLsb' (n - 2 - 2) len :=
  (BitVec.extractLsb'_append_eq_of_le (w := 2) (by omega)).trans (BitVec.extractLsb'_append_eq_of_le (by omega))

theorem statusWord_faultCause : (statusWord s).extractLsb' 4 4 = s.faultCause.code :=
  (statusWord_from_cause s (by decide)).trans BitVec.extractLsb'_append_eq_right

/-- From bit 8 on STATUS is the fault's info with the reserved bits above it. -/
theorem statusWord_from_info {n len : Nat} (h : 8 ≤ n) :
    (statusWord s).extractLsb' n len = (0#20 ++ s.faultInfo).extractLsb' (n - 2 - 2 - 4) len :=
  (statusWord_from_cause s (by omega)).trans (BitVec.extractLsb'_append_eq_of_le (by omega))

theorem statusWord_faultInfo : (statusWord s).extractLsb' 8 4 = s.faultInfo :=
  (statusWord_from_info s (by decide)).trans BitVec.extractLsb'_append_eq_right

theorem statusWord_reserved : (statusWord s).extractLsb' 12 20 = 0#20 :=
  (statusWord_from_info s (by decide)).trans BitVec.extractLsb'_append_eq_left

end

/-- Settles O49: the five fields of STATUS, and that address 0 is none that a write can change. -/
theorem statusFields : Obligations.StatusFields :=
  ⟨rfl, rfl, rfl, fun s => ⟨rfl, rfl, statusWord_runState s, statusWord_wait s, statusWord_faultCause s,
    statusWord_faultInfo s, statusWord_reserved s, fun v => hostAct_writeReg_other (by decide) (by decide) v s⟩⟩

/-- Settles O50: one equation per address that is read, and the three kinds of writes. -/
theorem registerMap : Obligations.RegisterMap := fun s =>
  ⟨rfl, rfl, readReg_progLen s, readReg_ip s, readReg_dp s, readReg_faultIp s, fun _ h => readReg_past_map h s,
    fun _ v h1 h2 => hostAct_writeReg_other h1 h2 v s, fun v hr => hostAct_writeProgLen_of_not_idle v hr,
    fun v hr => ⟨clampedLen v, hostAct_writeProgLen_idle v hr⟩⟩

/-! ## The tape port -/

theorem readTape_stopped {c : Config} {a : Nat} {s : State} (hr : s.runState ≠ .running) (ha : a < c.tapeLen) :
    readTape c a s = some (s.tape.get a) := by
  rw [readTape, if_neg hr, memRead_eq_some.2 ⟨ha, rfl⟩]

theorem readTape_none {c : Config} {a : Nat} {s : State} (h : s.runState = .running ∨ c.tapeLen ≤ a) :
    readTape c a s = none := by
  rcases h with hr | ha
  · exact if_pos hr
  · simp [readTape, memRead, Nat.not_lt.2 ha]

/-- Settles O51: the reply is the byte of `readTape`, if there is one. -/
theorem tapeReadback : Obligations.TapeReadback := fun _ _ =>
  ⟨fun hr ha => congrArg replyByte (readTape_stopped hr ha), fun h => congrArg replyByte (readTape_none h)⟩

end Sys2Proof.Machine
end

section
/-! Proofs of the memory statements (spec/20_memory.md): the image file. -/

namespace Sys2Proof.Machine

/-! ## The bytes of one word -/

/-- A word's number is its bytes' digits in base 256, the first byte the least significant. -/
theorem toNat_eq_byte_digits (w : Word) :
    w.toNat = (w.extractLsb' 0 8).toNat + 2 ^ 8 * (w.extractLsb' 8 8).toNat +
      2 ^ 16 * (w.extractLsb' 16 8).toNat + 2 ^ 24 * (w.extractLsb' 24 8).toNat := by
  simp only [BitVec.extractLsb'_toNat, Nat.shiftRight_eq_div_pow]
  have := w.isLt
  omega

/-- The bytes of a word, joined most significant first, are the word. -/
theorem append_bytes_of_word (w : Word) :
    (w.extractLsb' 24 8 ++ w.extractLsb' 16 8 ++ w.extractLsb' 8 8 ++ w.extractLsb' 0 8 : Word) = w := by
  rw [BitVec.extractLsb'_append_extractLsb'_eq_extractLsb' (by rfl),
    BitVec.extractLsb'_append_extractLsb'_eq_extractLsb' (by rfl),
    BitVec.extractLsb'_append_extractLsb'_eq_extractLsb' (by rfl)]
  exact BitVec.extractLsb'_eq_self

/-- Four bytes joined to a word are that word's bytes. -/
theorem wordBytes_append (b3 b2 b1 b0 : Byte) : wordBytes (b3 ++ b2 ++ b1 ++ b0) = [b0, b1, b2, b3] := by
  have h0 : (b3 ++ b2 ++ b1 ++ b0).extractLsb' 0 8 = b0 := BitVec.extractLsb'_append_eq_right
  have h1 : (b3 ++ b2 ++ b1 ++ b0).extractLsb' 8 8 = b1 :=
    (BitVec.extractLsb'_append_eq_of_le (by decide)).trans BitVec.extractLsb'_append_eq_right
  have h2 : (b3 ++ b2 ++ b1 ++ b0).extractLsb' 16 8 = b2 :=
    ((BitVec.extractLsb'_append_eq_of_le (by decide)).trans (BitVec.extractLsb'_append_eq_of_le (by decide))).trans
      BitVec.extractLsb'_append_eq_right
  have h3 : (b3 ++ b2 ++ b1 ++ b0).extractLsb' 24 8 = b3 :=
    ((BitVec.extractLsb'_append_eq_of_le (by decide)).trans (BitVec.extractLsb'_append_eq_of_le (by decide))).trans
      BitVec.extractLsb'_append_eq_left
  exact congr (congrArg _ h0) (congr (congrArg _ h1) (congr (congrArg _ h2) (congrArg (fun b => [b]) h3)))

/-! ## The whole file -/

theorem imageBytes_length (ws : List Word) : (imageBytes ws).length = 4 * ws.length := by
  induction ws with
  | nil => rfl
  | cons w ws ih => simp only [imageBytes, wordBytes, List.length_append, List.length_cons, List.length_nil, ih]; omega

theorem wordsOfBytes_imageBytes (ws : List Word) : wordsOfBytes (imageBytes ws) = .ok ws := by
  induction ws with
  | nil => rfl
  | cons w ws ih =>
    simp only [imageBytes, wordBytes, List.cons_append, List.nil_append, wordsOfBytes, ih]
    rw [append_bytes_of_word]

theorem imageBytes_of_wordsOfBytes {bs : List Byte} {ws : List Word} (h : wordsOfBytes bs = .ok ws) :
    imageBytes ws = bs := by
  induction bs using wordsOfBytes.induct generalizing ws with
  | case1 => injection h with h; subst h; rfl
  | case2 b0 b1 b2 b3 rest ws' hrest ih =>
    simp only [wordsOfBytes, hrest] at h
    injection h with h; subst h
    simp only [imageBytes, wordBytes_append, ih hrest, List.cons_append, List.nil_append]
  | case3 b0 b1 b2 b3 rest e hrest ih => simp only [wordsOfBytes, hrest] at h; cases h
  | case4 bs hnil hfour => simp only [wordsOfBytes] at h; cases h

/-- What is read has the length of whole words, so other lengths are rejected, and there is one reason to. -/
theorem wordsOfBytes_truncated {bs : List Byte} (h : bs.length % 4 ≠ 0) :
    wordsOfBytes bs = .error .truncatedWord := by
  rcases hw : wordsOfBytes bs with ⟨⟨⟩⟩ | ws
  · rfl
  · rw [← imageBytes_of_wordsOfBytes hw, imageBytes_length] at h
    exact absurd (Nat.mul_mod_right 4 _) h

/-- Settles O8: word by word, and a file of whole words is four times as long. -/
theorem imageFileRoundTrip : Obligations.ImageFileRoundTrip :=
  ⟨fun w _ => ⟨_, _, _, _, rfl, toNat_eq_byte_digits w⟩,
    fun ws => ⟨wordsOfBytes_imageBytes ws, imageBytes_length ws⟩,
    fun _ _ h => imageBytes_of_wordsOfBytes h, fun _ h => wordsOfBytes_truncated h⟩

end Sys2Proof.Machine
end

section
/-! Proofs of the memory statements (spec/20_memory.md): what each instruction form leaves unchanged. -/

namespace Sys2Proof.Machine

/-! ## The cells -/

theorem memRead_of_tape_eq {s t : State} (h : t.tape = s.tape) (c : Config) (a : Nat) :
    memRead c a t = memRead c a s := by
  simp only [memRead, h]

theorem memRead_of_tape_set {c : Config} {a k : Nat} {v : Byte} {s t : State} (h : t.tape = s.tape.set k v)
    (ha : a ≠ k) : memRead c a t = memRead c a s := by
  simp only [memRead, h, Tape.get_set_other s.tape ha]

/-- Every instruction, faults and holds included, leaves all cells but the one at the data pointer (R43). -/
theorem exec_memRead_other {i : Instr} {s t : State} (h : exec i s = .next t) {c : Config} {a : Nat}
    (ha : a ≠ cellAddr s) : memRead c a t = memRead c a s := by
  cases exec_effect h with
  | added n _ _ => exact memRead_of_tape_set rfl ha
  | subtracted n _ _ => exact memRead_of_tape_set rfl ha
  | readByte z _ _ b rest _ => exact memRead_of_tape_set rfl ha
  | _ => rfl

/-- Only ADD_BYTE, SUB_BYTE and READ write the tape (R43, R45). -/
theorem exec_tape {i : Instr} {s t : State} (h : exec i s = .next t)
    (hi : ∀ n, i ≠ .addByte n ∧ i ≠ .subByte n ∧ i ≠ .read n) : t.tape = s.tape := by
  cases exec_effect h with
  | added n e _ => exact absurd e (hi n).1
  | subtracted n e _ => exact absurd e (hi n).2.1
  | readByte z e _ b rest _ => exact absurd e (hi z).2.2
  | _ => rfl

/-! ## The frame of each form -/

section
variable {s t : State}

theorem exec_addByte_frame {n : Operand} (h : exec (.addByte n) s = .next t) :
    t = { s with tape := t.tape, ip := t.ip } := by
  obtain ⟨_, rfl⟩ := exec_addByte_next.1 h; rfl

theorem exec_subByte_frame {n : Operand} (h : exec (.subByte n) s = .next t) :
    t = { s with tape := t.tape, ip := t.ip } := by
  obtain ⟨_, rfl⟩ := exec_subByte_next.1 h; rfl

/-- A READ is held, or it does with the first event what the input port says. -/
theorem exec_read_cases {z : Operand} (h : exec (.read z) s = .next t) :
    (s.hostInput = [] ∧ t = { s with wait := .input }) ∨
    (∃ e rest, s.hostInput = e :: rest ∧ finishRead Config.hw e { s with hostInput := rest } = .next t) := by
  by_cases hi : s.hostInput = []
  · exact .inl ⟨hi, next_eq_next.1 ((exec_read_none hi).symm.trans h)⟩
  · obtain ⟨e, rest, he⟩ := List.exists_cons_of_ne_nil hi
    exact .inr ⟨e, rest, he, (exec_read_event he).symm.trans h⟩

theorem exec_read_frame {z : Operand} (h : exec (.read z) s = .next t) :
    t = { s with tape := t.tape, ip := t.ip, wait := t.wait, hostInput := t.hostInput, hostTaken := t.hostTaken, runState := t.runState, faultCause := t.faultCause, faultInfo := t.faultInfo, faultIp := t.faultIp } := by
  rcases exec_read_cases h with ⟨_, rfl⟩ | ⟨e, rest, _, hf⟩
  · rfl
  · rcases finishRead_cases hf with ⟨_, b, rfl⟩ | ⟨_, rfl⟩ | ⟨_, _, rfl⟩ | ⟨_, _, rfl⟩ <;> rfl

/-- A READ that does not fault leaves the run state and the fault record. -/
theorem exec_read_record {z : Operand} (h : exec (.read z) s = .next t) (hr : t.runState ≠ .faulted) :
    t.runState = s.runState ∧ t.faultCause = s.faultCause ∧ t.faultInfo = s.faultInfo ∧ t.faultIp = s.faultIp := by
  rcases exec_read_cases h with ⟨_, rfl⟩ | ⟨e, rest, _, hf⟩
  · exact ⟨rfl, rfl, rfl, rfl⟩
  · rcases finishRead_cases hf with ⟨_, b, rfl⟩ | ⟨_, rfl⟩ | ⟨_, _, rfl⟩ | ⟨_, _, rfl⟩
    · exact ⟨rfl, rfl, rfl, rfl⟩
    · exact absurd rfl hr
    · exact absurd rfl hr
    · exact ⟨rfl, rfl, rfl, rfl⟩

theorem exec_write_frame {z : Operand} (h : exec (.write z) s = .next t) :
    t = { s with ip := t.ip, wait := t.wait, hostOutput := t.hostOutput, hostAccepts := t.hostAccepts } := by
  obtain ⟨_, rfl⟩ := exec_write_next.1 h
  rcases offerByte_cases (s.tape.get (cellAddr s)) s with ⟨_, e⟩ | ⟨k, _, e⟩
  · rw [e]
  · rw [e]; rfl

theorem exec_jumpIfZero_frame {u : Operand} (h : exec (.jumpIfZero u) s = .next t) : t = { s with ip := t.ip } := by
  obtain ⟨_, rfl⟩ := exec_jumpIfZero_next.1 h
  split <;> rfl

/-- An illegal word does nothing but raise its fault (R66). -/
theorem exec_illegal {i : Instr} (hi : i.isIllegal = true) (s : State) :
    exec i s = .next (raise .illegalOpcode i.opcode s) := by
  cases i with
  | illegal9 x => rfl
  | illegalAB lo x => rfl
  | illegalCF lo x => rfl
  | _ => cases hi

theorem exec_illegal_frame {i : Instr} (hi : i.isIllegal = true) (h : exec i s = .next t) :
    t = { s with runState := t.runState, faultCause := t.faultCause, faultInfo := t.faultInfo, faultIp := t.faultIp } := by
  obtain rfl := next_eq_next.1 ((exec_illegal hi s).symm.trans h); rfl

/-- The pointer unit moves the pointer and advances, or it writes the fault record (R110). -/
theorem movePtr_frame (c : Config) (x : Int) (h : movePtr c x s = t) :
    t = { s with dp := t.dp, ip := t.ip } ∨
    t = { s with runState := t.runState, faultCause := t.faultCause, faultInfo := t.faultInfo, faultIp := t.faultIp } := by
  subst h
  rcases movePtr_cases c x s with ⟨_, e⟩ | ⟨_, e⟩ | ⟨k, _, _, e⟩ <;> rw [e]
  · exact .inr rfl
  · exact .inr rfl
  · exact .inl rfl

end

/-- Settles O31: the cells by `exec_memRead_other`, the other fields by the frame of each form. -/
theorem frameOfStoringForms : Obligations.FrameOfStoringForms := by
  intro i s t h
  refine ⟨fun ⟨n, hi⟩ => ⟨fun a => exec_memRead_other h, ?_⟩, fun ⟨z, hi⟩ => ⟨fun a => exec_memRead_other h, ?_⟩⟩
  · rcases hi with rfl | rfl
    · exact exec_addByte_frame h
    · exact exec_subByte_frame h
  · subst hi
    exact ⟨exec_read_frame h, exec_read_record h⟩

/-- Settles O32: the cells by `exec_tape`, the other fields by the frame of each form. -/
theorem frameOfFormsThatStoreNothing : Obligations.FrameOfFormsThatStoreNothing := by
  intro i s t h hi
  refine ⟨memRead_of_tape_eq (exec_tape h hi) Config.hw, ?write, ?jumps, ?endRun, fun hill => exec_illegal_frame hill h,
    ?pointer⟩
  case write => rintro ⟨z, rfl⟩; exact exec_write_frame h
  case jumps =>
    rintro ⟨u, rfl | rfl⟩
    · exact exec_jumpIfZero_frame h
    · obtain rfl := next_eq_next.1 h; rfl
  case endRun => rintro ⟨z, rfl⟩; obtain rfl := next_eq_next.1 h; rfl
  case pointer =>
    rintro ⟨n, rfl | rfl⟩
    · exact movePtr_frame _ _ (next_eq_next.1 h).symm
    · exact movePtr_frame _ _ (next_eq_next.1 h).symm

end Sys2Proof.Machine
end

section
/-! Proofs of the memory statements (spec/20_memory.md): the two streams and the load port. -/

namespace Sys2Proof.Machine

/-! ## The output stream -/

/-- The output after a move is the output before it, or that with the cell at the data pointer after it. -/
abbrev OutputGrows (s t : State) : Prop :=
  t.hostOutput = s.hostOutput ∨
  ∃ v, memRead Config.hw (cellAddr s) s = some v ∧ t.hostOutput = s.hostOutput ++ [v]

theorem exec_outputGrows {i : Instr} {s t : State} (h : exec i s = .next t) : OutputGrows s t := by
  cases exec_effect h with
  | accepted z _ hd k _ => exact .inr ⟨_, memRead_eq_some.2 ⟨hd, rfl⟩, rfl⟩
  | _ => exact .inl rfl

theorem coreStep_outputGrows {s t : State} (h : coreStep s = .next t) : OutputGrows s t := by
  rcases coreStep_cases h with ⟨_, rfl⟩ | ⟨_, _, rfl⟩ | ⟨_, _, i, _, he⟩
  · exact .inl rfl
  · exact .inl rfl
  · exact exec_outputGrows he

theorem hostAct_outputGrows {a : HostAction} {s t : State} (h : hostAct Config.hw a s = .next t) :
    OutputGrows s t := by
  cases hostAct_effect h with
  | accepted _ _ hd => exact .inr ⟨_, memRead_eq_some.2 ⟨hd, rfl⟩, rfl⟩
  | _ => exact .inl rfl

/-- Settles O40: only a WRITE that is accepted at once and an acceptance of a held one hand over a byte. -/
theorem outputOnlyGrows : Obligations.OutputOnlyGrows := by
  intro s t h
  rcases step_cases h with ⟨r, hc, _⟩ | ⟨a, r, _, ha⟩
  · exact coreStep_outputGrows (s := { s with turns := r }) hc
  · exact hostAct_outputGrows (s := { s with turns := r }) ha

/-! ## The input stream -/

/-- No input event is used up. -/
abbrev InputKept (s t : State) : Prop := t.hostInput = s.hostInput ∧ t.hostTaken = s.hostTaken

/-- An instruction uses up no event, or the first of those the host has ready. -/
theorem exec_input {i : Instr} {s t : State} (h : exec i s = .next t) :
    InputKept s t ∨ (∃ e, s.hostInput = e :: t.hostInput) ∧ t.hostTaken = s.hostTaken + 1 := by
  cases exec_effect h with
  | readByte z _ _ b rest he => exact .inr ⟨⟨_, he⟩, rfl⟩
  | readError z _ rest he => exact .inr ⟨⟨_, he⟩, rfl⟩
  | readEnd z _ rest he => exact .inr ⟨⟨_, he⟩, rfl⟩
  | _ => exact .inl ⟨rfl, rfl⟩

theorem coreStep_input {s t : State} (h : coreStep s = .next t) :
    InputKept s t ∨ (∃ e, s.hostInput = e :: t.hostInput) ∧ t.hostTaken = s.hostTaken + 1 := by
  rcases coreStep_cases h with ⟨_, rfl⟩ | ⟨_, _, rfl⟩ | ⟨_, _, i, _, he⟩
  · exact .inl ⟨rfl, rfl⟩
  · exact .inl ⟨rfl, rfl⟩
  · exact exec_input he

/-- An interaction uses up no event, or the one it answers with; what the host has ready stays. -/
theorem hostAct_input {a : HostAction} {s t : State} (h : hostAct Config.hw a s = .next t) :
    InputKept s t ∨ (∃ e, a = .answer e) ∧ t.hostInput = s.hostInput ∧ t.hostTaken = s.hostTaken + 1 := by
  cases hostAct_effect h with
  | answered b ha _ _ => exact .inr ⟨⟨_, ha⟩, rfl, rfl⟩
  | answeredError ha _ => exact .inr ⟨⟨_, ha⟩, rfl, rfl⟩
  | answeredEnd ha _ => exact .inr ⟨⟨_, ha⟩, rfl, rfl⟩
  | _ => exact .inl ⟨rfl, rfl⟩

/-- Settles O41: the core's move takes from what is ready, the host's turn from its own answer. -/
theorem inputIsTakenInOrder : Obligations.InputIsTakenInOrder := by
  intro s t h
  rcases step_cases h with ⟨r, hc, _⟩ | ⟨a, r, hturns, ha⟩
  · rcases coreStep_input hc with kept | taken
    · exact .inl kept
    · exact .inr (.inl taken)
  · rcases hostAct_input ha with kept | ⟨⟨e, rfl⟩, taken⟩
    · exact .inl kept
    · exact .inr (.inr ⟨⟨e, r, hturns⟩, taken⟩)

/-! ## The load port -/

theorem loadWord_accepted {c : Config} {i : Nat} (w : Word) {s : State} (hr : s.runState = .idle)
    (hi : i < c.progDepth) : loadWord c i w s = { s with imem := setKey i w s.imem } := by
  simp [loadWord, isIdle, hr, hi]

theorem loadWord_ignored {c : Config} {i : Nat} (w : Word) {s : State}
    (h : s.runState ≠ .idle ∨ c.progDepth ≤ i) : loadWord c i w s = s := by
  refine if_neg fun ⟨hr, hi⟩ => ?_
  rcases h with h | h
  · exact h (by simpa [isIdle] using hr)
  · exact Nat.not_lt.2 h hi

theorem progWord_setKey_same (c : Config) (i : Nat) (w : Word) (s : State) :
    progWord c i { s with imem := setKey i w s.imem } = some w :=
  progWord_of_lookup (lookupKey_setKey_same i w s.imem)

theorem progWord_setKey_other (c : Config) {i j : Nat} (h : j ≠ i) (w : Word) (s : State) :
    progWord c j { s with imem := setKey i w s.imem } = progWord c j s := by
  simp only [progWord, lookupKey_setKey_other h]

/-- Settles O47: an accepted load is one `setKey`, and instructions keep program memory. -/
theorem loadSetsOneWord : Obligations.LoadSetsOneWord := by
  refine ⟨fun i s t h => (exec_program_frame h).1, fun i w s => ⟨fun hr hi => ?_, fun h => ?_⟩⟩
  · exact ⟨_, next_eq_next.2 (loadWord_accepted w hr hi).symm, progWord_setKey_same _ i w s,
      fun j hj => progWord_setKey_other _ hj w s, rfl⟩
  · exact next_eq_next.2 (loadWord_ignored w h).symm

end Sys2Proof.Machine
end

section
/-! Proofs of the encoding statements (spec/30_encoding.md): the decoder, the encoder and the opcode table. -/

namespace Sys2Proof.Machine

/-! ## The fields of a word as numbers (R60, R88) -/

theorem opcodeField_toNat (w : Word) : (opcodeField w).toNat = w.toNat / 2 ^ 28 := by
  have := w.isLt
  simp only [opcodeField, BitVec.extractLsb'_toNat, Nat.shiftRight_eq_div_pow]
  omega

theorem operandField_toNat (w : Word) : (operandField w).toNat = w.toNat % 2 ^ 28 := by
  simp only [operandField, BitVec.extractLsb'_toNat, Nat.shiftRight_zero]

theorem encode_toNat (i : Instr) : (encode i).toNat = i.opcode.toNat * 2 ^ 28 + i.operand.toNat := by
  rw [encode, BitVec.toNat_append, ← Nat.shiftLeft_add_eq_or_of_lt i.operand.isLt, Nat.shiftLeft_eq]

theorem encode_eq_shift_or (i : Instr) : encode i = i.opcode.setWidth 32 <<< 28 ||| i.operand.setWidth 32 := by
  apply BitVec.eq_of_getLsbD_eq
  intro k hk
  rw [encode, getLsbD_word]
  split
  · rename_i h; simp [h, hk]
  · rename_i h; simp [h, hk, BitVec.getLsbD_of_ge i.operand k (by omega)]

/-- Settles O2: the shift by `encode_eq_shift_or`, the hexadecimal forms by the opcode's place value. -/
theorem wordIsOpcodeShiftedOrOperand : Obligations.WordIsOpcodeShiftedOrOperand := by
  refine ⟨fun i => ⟨encode_eq_shift_or i, i.operand.isLt⟩, fun n => ?_, by decide, by decide, by decide⟩
  simp [encode_toNat, Instr.opcode, Instr.operand]

/-! ## What the decoder reads (R69) -/

theorem bitVec1_cases : ∀ lo : BitVec 1, lo = 0 ∨ lo = 1 := by decide

theorem bitVec2_cases : ∀ lo : BitVec 2, lo = 0 ∨ lo = 1 ∨ lo = 2 ∨ lo = 3 := by decide

/-- Settles O4: the opcode field of an encoded instruction selects its constructor again; in the two illegal rows that
have free opcode bits, for each value of those bits. -/
theorem decodeOfEncode : Obligations.DecodeOfEncode := by
  intro i
  simp only [decode, opcodeField_encode, operandField_encode]
  cases i with
  | illegalAB lo x => rcases bitVec1_cases lo with rfl | rfl <;> rfl
  | illegalCF lo x => rcases bitVec2_cases lo with rfl | rfl | rfl | rfl <;> rfl
  | _ => rfl

theorem decode_opcode (w : Word) : (decode w).opcode = opcodeField w := by
  apply BitVec.eq_of_toNat_eq
  unfold decode
  split
  case h_16 => -- opcode 15: the one left over by the fifteen numbered arms
    have := (opcodeField w).isLt
    change (15 : Nat) = (opcodeField w).toNat
    simp only [imp_false] at *
    omega
  all_goals rename_i h; exact h.symm

theorem decode_operand (w : Word) : (decode w).operand = operandField w := by
  unfold decode
  split <;> rfl

theorem isIllegal_iff (i : Instr) : i.isIllegal = true ↔ 9 ≤ i.opcode.toNat := by
  cases i with
  | illegalAB lo x => exact iff_of_true rfl (opcode_illegalAB_ge lo)
  | illegalCF lo x => exact iff_of_true rfl (opcode_illegalCF_ge lo)
  | illegal9 x => exact iff_of_true rfl (Nat.le_refl 9)
  | _ => exact iff_of_false Bool.false_ne_true (by simp [Instr.opcode])

/-- Settles O3: the operand is the operand field, and each opcode selects one arm of the decoder. -/
theorem decodeReadsTheTwoFields : Obligations.DecodeReadsTheTwoFields := by
  intro w
  refine ⟨_, operandField w, rfl, operandField_toNat w, ?_⟩
  rw [← opcodeField_toNat w]
  refine ⟨?_, ?_, ?_, ?_, ?_, ?_, ?_, ?_, ?_, ?illegal⟩
  case illegal => exact fun h => ⟨(isIllegal_iff _).2 (by rwa [decode_opcode]), by rw [decode_opcode]⟩
  all_goals intro h; simp only [decode, h]

/-- Settles O5: the decoder keeps both fields, and a word is its two fields. -/
theorem encodeOfDecode : Obligations.EncodeOfDecode := by
  intro w
  rw [encode, decode_opcode, decode_operand, word_eq_fields]

theorem encodesItsRow (i : Instr) : Laws.EncodesItsRow.Statement i := by
  cases i with
  | addByte n => exact Laws.EncodesItsRow.addByte n
  | subByte n => exact Laws.EncodesItsRow.subByte n
  | addPtr n => exact Laws.EncodesItsRow.addPtr n
  | subPtr n => exact Laws.EncodesItsRow.subPtr n
  | write z => exact Laws.EncodesItsRow.write z
  | read z => exact Laws.EncodesItsRow.read z
  | jumpIfZero t => exact Laws.EncodesItsRow.jumpIfZero t
  | jump t => exact Laws.EncodesItsRow.jump t
  | endRun z => exact Laws.EncodesItsRow.endRun z
  | illegal9 x => exact Laws.EncodesItsRow.illegal9 x
  | illegalAB lo x => exact Laws.EncodesItsRow.illegalAB lo x
  | illegalCF lo x => exact Laws.EncodesItsRow.illegalCF lo x

/-- Two different rows differ in a bit that both of them fix. -/
theorem opcodeTable_pairwise : opcodeTable.Pairwise fun r q => r.fixed &&& q.mask ≠ q.fixed &&& r.mask := by
  decide

theorem row_unique {w : Word} {k j : Nat} {r q : OpcodeRow} (hk : opcodeTable[k]? = some r)
    (hj : opcodeTable[j]? = some q) (hr : r.holds w = true) (hq : q.holds w = true) : k = j := by
  wlog hle : k ≤ j generalizing k j r q
  · exact (this hj hk hq hr (by omega)).symm
  by_contra hne
  obtain ⟨hk', rfl⟩ := List.getElem?_eq_some_iff.1 hk
  obtain ⟨hj', rfl⟩ := List.getElem?_eq_some_iff.1 hj
  simp only [OpcodeRow.holds, beq_iff_eq] at hr hq
  apply List.pairwise_iff_getElem.1 opcodeTable_pairwise k j hk' hj' (by omega)
  rw [← hr, ← hq, BitVec.and_assoc, BitVec.and_assoc, BitVec.and_comm (opcodeTable[j]).mask]

/-- Settles O6: a word is the encoding of what it decodes to, which is in its own row; no word is in two rows. -/
theorem everyWordHasExactlyItsRow : Obligations.EveryWordHasExactlyItsRow := by
  intro w k r hk
  obtain ⟨q, hq, hw⟩ := encodesItsRow (decode w)
  rw [encodeOfDecode w] at hw
  refine ⟨fun hr => row_unique hk hq hr hw, fun h => ?_⟩
  subst h
  obtain rfl := Option.some.inj (hk.symm.trans hq)
  exact hw

/-- Settles O1, by running the decoder on the eleven words. -/
theorem wordsOfTheSpecDecode : Obligations.WordsOfTheSpecDecode := by
  unfold Obligations.WordsOfTheSpecDecode
  decide

/-! ## The meaning of a word -/

theorem decode_write {w : Word} (h : opcodeField w = 4) : decode w = .write (operandField w) := by
  simp only [decode, h]; rfl

theorem decode_read {w : Word} (h : opcodeField w = 5) : decode w = .read (operandField w) := by
  simp only [decode, h]; rfl

theorem decode_endRun {w : Word} (h : opcodeField w = 8) : decode w = .endRun (operandField w) := by
  simp only [decode, h]; rfl

/-- Settles O7: the two words decode to the same form, and no meaning of the three forms reads its operand. -/
theorem unusedOperandIsIgnored : Obligations.UnusedOperandIsIgnored := by
  intro w w' s he ho
  rcases ho with ho | ho | ho
  · rw [decode_write ho, decode_write (he ▸ ho)]; rfl
  · rw [decode_read ho, decode_read (he ▸ ho)]; rfl
  · rw [decode_endRun ho, decode_endRun (he ▸ ho)]; rfl

/-- Settles O26: the words of opcode 9 to 15 are the illegal ones, and the decoder keeps the opcode. -/
theorem illegalOpcodeIsRaised : Obligations.IllegalOpcodeIsRaised := by
  refine ⟨fun w s h => ?_, fun x s => rfl, fun lo x s => ⟨5#3 ++ lo, by decide +revert, rfl⟩,
    fun lo x s => ⟨3#2 ++ lo, by decide +revert, rfl⟩⟩
  rw [exec_illegal ((isIllegal_iff _).2 (by rwa [decode_opcode])), decode_opcode]
  rfl

theorem fetchInstr_of_fetchWord {s : State} {w : Word} (hl : s.ip.toNat < s.progLen.toNat)
    (hw : fetchWord Config.hw s = some w) : fetchInstr Config.hw s = some (decode w) := by
  rw [fetchInstr, if_pos ((fetchable_iff s).2 hl), hw, Option.map_some]

/-- Settles O34: the fetch gives the decoded word, which for an encoded instruction is that instruction. -/
theorem stepRunsTheDecodedInstruction : Obligations.StepRunsTheDecodedInstruction := by
  refine ⟨fun s w hr hl hw => ?_, fun s i hr hl hi => ?_, fun s rest ht => ?_⟩
  · exact step_eq_exec hr (fetchInstr_of_fetchWord hl hw)
  · exact step_eq_exec hr (lookupKey_fetch (decodeOfEncode i) hl hi)
  · simp only [step, ht]

end Sys2Proof.Machine
end

section
/-! Proofs of the encoding statements (spec/30_encoding.md): where an instruction leaves the instruction pointer, and the
steps of a run on a well-formed image. -/

namespace Sys2Proof.Machine

/-! ## The instruction pointer after an instruction (R71) -/

/-- Where an instruction leaves the instruction pointer: one further, at its target, or where it is. Beside it stands which
instructions do so and whether the core goes on. -/
inductive IpMove (i : Instr) (s t : State) : Prop where
  | onward (hip : t.ip = s.ip + 1) (hr : t.runState = s.runState) (hw : t.wait = s.wait ∨ t.wait = .none)
      (hend : i.isEnd = false) (hj : ∀ u, i ≠ .jump u)
      (hz : ∀ u, i = .jumpIfZero u → s.tape.get (cellAddr s) ≠ 0)
  | jumped (u : Operand) (hip : t.ip = u) (hr : t.runState = s.runState) (hw : t.wait = s.wait)
      (hi : i = .jump u ∨ i = .jumpIfZero u ∧ s.tape.get (cellAddr s) = 0)
  | stayed (hip : t.ip = s.ip) (hs : t.runState ≠ .running ∨ t.wait ≠ .none)
      (hi : ∀ u, i ≠ .jump u ∧ i ≠ .jumpIfZero u)

theorem exec_ipMove {i : Instr} {s t : State} (h : exec i s = .next t) : IpMove i s t := by
  cases exec_effect h with
  | added n hi _ => subst hi; exact .onward rfl rfl (.inl rfl) rfl (by simp) (by simp)
  | subtracted n hi _ => subst hi; exact .onward rfl rfl (.inl rfl) rfl (by simp) (by simp)
  | moved k _ hi =>
    rcases hi with ⟨n, rfl, _⟩ | ⟨n, rfl, _⟩ <;> exact .onward rfl rfl (.inl rfl) rfl (by simp) (by simp)
  | above hi => rcases hi with ⟨n, rfl, _⟩ | ⟨n, rfl, _⟩ <;> exact .stayed rfl (.inl (by simp)) (by simp)
  | below n hi _ => subst hi; exact .stayed rfl (.inl (by simp)) (by simp)
  | offered z hi _ _ => subst hi; exact .stayed rfl (.inr (by simp)) (by simp)
  | accepted z hi _ k _ => subst hi; exact .onward rfl rfl (.inr rfl) rfl (by simp) (by simp)
  | requested z hi _ => subst hi; exact .stayed rfl (.inr (by simp)) (by simp)
  | readByte z hi _ b rest _ => subst hi; exact .onward rfl rfl (.inr rfl) rfl (by simp) (by simp)
  | readError z hi rest _ => subst hi; exact .stayed rfl (.inl (by simp)) (by simp)
  | readEnd z hi rest _ => subst hi; exact .stayed rfl (.inl (by simp)) (by simp)
  | jumped u hi => exact .jumped u rfl rfl rfl hi
  | passed u hi hv => subst hi; exact .onward rfl rfl (.inl rfl) rfl (by simp) fun _ _ => hv
  | halted z hi => subst hi; exact .stayed rfl (.inl (by simp)) (by simp)
  | illegal hi _ =>
    refine .stayed rfl (.inl (by simp)) fun u => ⟨?_, ?_⟩ <;> (rintro rfl; cases hi)

theorem ip_add_one_toNat {ip : ProgIndex} (h : ip.toNat + 1 < 2 ^ 28) : (ip + 1).toNat = ip.toNat + 1 := by
  rw [BitVec.toNat_add]; exact Nat.mod_eq_of_lt h

theorem fetchInstr_lt {c : Config} {s : State} {i : Instr} (h : fetchInstr c s = some i) :
    s.ip.toNat < s.progLen.toNat := by
  by_contra hl
  rw [fetchInstr, if_neg (by simpa [fetchable] using hl)] at h
  cases h

/-- Settles O35: the three moves of the instruction pointer; that `ip + 1` does not wrap is that `ip` is below PROG_LEN. -/
theorem sequencingOfTheInstructionPointer : Obligations.SequencingOfTheInstructionPointer := by
  intro s t i hready hf hs
  rw [step_eq_exec hready hf] at hs
  obtain ⟨_, hrun, hwait⟩ := hready
  have goesOn (hr : t.runState = s.runState) (hw : t.wait = s.wait ∨ t.wait = .none) :
      ¬(t.runState = .faulted ∨ t.wait ≠ .none) := by
    rw [hwait, or_self] at hw
    simp [hr, hrun, hw]
  cases exec_ipMove hs with
  | onward hip hr hw hend hj hz =>
    refine ⟨fun h => absurd h (goesOn hr hw), fun h => ?_, fun u h => absurd h (hj u), fun u h h0 => absurd h0 (hz u h),
      fun _ _ _ _ => ?_⟩
    · rw [hend] at h; cases h
    · have hlt := fetchInstr_lt hf
      rw [hip, ip_add_one_toNat (by omega)]
  | jumped u hip hr hw hi =>
    refine ⟨fun h => absurd h (goesOn hr (.inl hw)), fun h => ?_, fun v h => ?_, fun v h h0 => ?_, fun _ _ hj hz => ?_⟩
    · rcases hi with rfl | ⟨rfl, _⟩ <;> cases h
    · rcases hi with rfl | ⟨rfl, _⟩ <;> cases h; exact hip
    · rcases hi with rfl | ⟨rfl, _⟩ <;> cases h; exact hip
    · rcases hi with hi | ⟨hi, h0⟩
      · exact absurd hi (hj u)
      · exact absurd h0 (hz u hi)
  | stayed hip hstop hi =>
    refine ⟨fun _ => hip, fun _ => hip, fun u h => absurd h (hi u).1, fun u h => absurd h (hi u).2, fun h1 h2 => ?_⟩
    rcases hstop with h | h
    · exact absurd h1 h
    · exact absurd h2 h

/-! ## The targets of a well-formed image (R72 f) -/

theorem matchJumps_jump {t : Operand} {xs : List Instr} {idx : Nat} {stack left : List (Nat × Operand)} :
    matchJumps (.jump t :: xs) idx stack = some left ↔
      ∃ u inner, stack = (t.toNat, u) :: inner ∧ u.toNat = idx + 1 ∧ matchJumps xs (idx + 1) inner = some left := by
  cases stack with
  | nil => simp [matchJumps]
  | cons p inner =>
    simp only [matchJumps]
    constructor
    · intro h
      split at h
      · rename_i hp; exact ⟨p.2, inner, by rw [hp.2], hp.1, h⟩
      · cases h
    · rintro ⟨u, inner', hs, hu, h⟩
      cases hs
      rwa [if_pos ⟨hu, rfl⟩]

/-- What the first word of a matched program does to the open brackets. -/
theorem matchJumps_cons {x : Instr} {xs : List Instr} {idx : Nat} {stack left : List (Nat × Operand)}
    (h : matchJumps (x :: xs) idx stack = some left) :
    (∃ u, x = .jumpIfZero u ∧ matchJumps xs (idx + 1) ((idx, u) :: stack) = some left) ∨
    (∃ t u inner, x = .jump t ∧ stack = (t.toNat, u) :: inner ∧ u.toNat = idx + 1 ∧
      matchJumps xs (idx + 1) inner = some left) ∨
    matchJumps xs (idx + 1) stack = some left := by
  cases x with
  | jumpIfZero u => exact .inl ⟨u, rfl, h⟩
  | jump t => obtain ⟨u, inner, hs, hu, h⟩ := matchJumps_jump.1 h; exact .inr (.inl ⟨t, u, inner, rfl, hs, hu, h⟩)
  | _ => exact .inr (.inr h)

/-- The brackets left open stand before the end of the words read. -/
theorem matchJumps_left_lt {xs : List Instr} {idx : Nat} {stack left : List (Nat × Operand)}
    (h : matchJumps xs idx stack = some left) (hs : ∀ p ∈ stack, p.1 < idx) : ∀ p ∈ left, p.1 < idx + xs.length := by
  induction xs generalizing idx stack with
  | nil => obtain rfl := Option.some.inj h; exact hs
  | cons x xs ih =>
    have hs' : ∀ p ∈ stack, p.1 < idx + 1 := fun p hp => Nat.lt_succ_of_lt (hs p hp)
    have e : idx + (x :: xs).length = idx + 1 + xs.length := by rw [List.length_cons]; omega
    rw [e]
    rcases matchJumps_cons h with ⟨u, rfl, h⟩ | ⟨t, u, inner, rfl, rfl, _, h⟩ | h
    · exact ih h (List.forall_mem_cons.2 ⟨Nat.lt_succ_self idx, hs'⟩)
    · exact ih h (List.forall_mem_cons.1 hs').2
    · exact ih h hs'

/-- An open bracket stays open, or the JUMP before its operand closes it. -/
theorem matchJumps_closes {xs : List Instr} {idx : Nat} {stack left : List (Nat × Operand)} {p : Nat × Operand}
    (h : matchJumps xs idx stack = some left) (hp : p ∈ stack) :
    p ∈ left ∨ ∃ q t, xs[q]? = some (.jump t) ∧ p.2.toNat = idx + q + 1 := by
  induction xs generalizing idx stack with
  | nil => obtain rfl := Option.some.inj h; exact .inl hp
  | cons x xs ih =>
    have later {stack' : List (Nat × Operand)} (h : matchJumps xs (idx + 1) stack' = some left) (hp : p ∈ stack') :
        p ∈ left ∨ ∃ q t, (x :: xs)[q]? = some (.jump t) ∧ p.2.toNat = idx + q + 1 := by
      refine (ih h hp).imp_right fun ⟨q, t, hq, hu⟩ => ⟨q + 1, t, hq, ?_⟩
      omega
    rcases matchJumps_cons h with ⟨u, rfl, h⟩ | ⟨t, u, inner, rfl, rfl, hu, h⟩ | h
    · exact later h (List.mem_cons_of_mem _ hp)
    · rcases List.mem_cons.1 hp with rfl | hp
      · exact .inr ⟨0, t, rfl, hu⟩
      · exact later h hp
    · exact later h hp

/-- The matching of a program, cut at one of its words. -/
theorem matchJumps_cut {prog : List Instr} {p : Nat} {i : Instr} (hm : matchJumps prog 0 [] = some [])
    (hp : prog[p]? = some i) :
    ∃ stack, (∀ q ∈ stack, q.1 < p) ∧ matchJumps (i :: prog.drop (p + 1)) p stack = some [] := by
  obtain ⟨hlt, rfl⟩ := List.getElem?_eq_some_iff.1 hp
  have hlen : (prog.take p).length = p := List.length_take_of_le hlt.le
  rw [← List.take_append_drop p prog, matchJumps_append, hlen, Nat.zero_add, List.drop_eq_getElem_cons hlt] at hm
  obtain ⟨stack, h1, h2⟩ := Option.bind_eq_some_iff.1 hm
  refine ⟨stack, ?_, h2⟩
  have := matchJumps_left_lt h1 (by simp)
  rwa [hlen, Nat.zero_add] at this

/-- A JUMP goes back to the word of the bracket it closes. -/
theorem jump_target_lt {prog : List Instr} (hm : matchJumps prog 0 [] = some []) {p : Nat} {t : Operand}
    (hp : prog[p]? = some (.jump t)) : t.toNat < p := by
  obtain ⟨stack, hlt, h⟩ := matchJumps_cut hm hp
  obtain ⟨u, inner, rfl, _, _⟩ := matchJumps_jump.1 h
  exact hlt _ (List.mem_cons_self ..)

/-- A JUMP_IF_ZERO goes on after the JUMP that closes its bracket. -/
theorem jumpIfZero_target {prog : List Instr} (hm : matchJumps prog 0 [] = some []) {p : Nat} {u : Operand}
    (hp : prog[p]? = some (.jumpIfZero u)) : ∃ b t, prog[b]? = some (.jump t) ∧ u.toNat = b + 1 := by
  obtain ⟨stack, _, h⟩ := matchJumps_cut hm hp
  rw [matchJumps] at h
  rcases matchJumps_closes h (List.mem_cons_self ..) with hmem | ⟨q, t, hq, hu⟩
  · cases hmem
  · exact ⟨p + 1 + q, t, by rwa [List.getElem?_drop] at hq, hu⟩

/-! ## A step on a well-formed image (R72) -/

section
variable {prog : List Instr} (hwf : wellFormedImage prog = true)
include hwf

/-- Every word but END has a next one. -/
theorem next_in_image {p : Nat} {i : Instr} (hp : prog[p]? = some i) (hi : i.isEnd = false) :
    p + 1 < prog.length := by
  have hlt := (List.getElem?_eq_some_iff.1 hp).1
  have hne : p + 1 ≠ prog.length := fun e => by
    rw [(endsOnce_getElem? (wellFormedImage_parts hwf).1 p i hp).2 e] at hi; cases hi
  omega

theorem jump_target_in_image {p : Nat} {i : Instr} {u : Operand} (hp : prog[p]? = some i)
    (hi : i = .jump u ∨ i = .jumpIfZero u) : u.toNat < prog.length := by
  obtain ⟨_, _, hm⟩ := wellFormedImage_parts hwf
  rcases hi with rfl | rfl
  · exact (jump_target_lt hm hp).trans (List.getElem?_eq_some_iff.1 hp).1
  · obtain ⟨b, t, hb, hu⟩ := jumpIfZero_target hm hp
    exact hu ▸ next_in_image hwf hb rfl

theorem not_illegal_of_image {p : Nat} {i : Instr} (hp : prog[p]? = some i) : i.isIllegal = false := by
  have hi := (wellFormedImage_parts hwf).2.1 i (List.mem_of_getElem? hp)
  cases i with
  | illegal9 x => cases hi
  | illegalAB lo x => cases hi
  | illegalCF lo x => cases hi
  | _ => rfl

end

theorem HoldsImage.of_eq {prog : List Instr} {s t : State} (h : HoldsImage prog s) (hm : t.imem = s.imem)
    (hl : t.progLen = s.progLen) : HoldsImage prog t := by
  unfold HoldsImage; rwa [hm, hl]

theorem HoldsImage.fetchInstr_eq {prog : List Instr} {s : State} (h : HoldsImage prog s)
    (hip : s.ip.toNat < prog.length) : fetchInstr Config.hw s = prog[s.ip.toNat]? := by
  rw [List.getElem?_eq_getElem hip]
  exact lookupKey_fetch (decodeOfEncode _) (h.1 ▸ hip) (h.2 _ hip)

/-- An instruction outside the illegal space raises no fault of the decoder. -/
theorem exec_faultCause {i : Instr} {s t : State} (h : exec i s = .next t) (hi : i.isIllegal = false)
    (hs : s.runState ≠ .faulted) (ht : t.runState = .faulted) :
    t.faultCause = .pointerRange ∨ t.faultCause = .inputRead := by
  cases exec_effect h with
  | illegal hill _ => rw [hi] at hill; cases hill
  | above _ => exact .inl rfl
  | below n _ _ => exact .inl rfl
  | readError z _ rest _ => exact .inr rfl
  | readEnd z _ rest _ => exact .inr rfl
  | halted z _ => cases ht
  | _ => exact absurd ht hs

/-- What every step on an image keeps: the image in place, `ip` inside it, and no fault but the two that a well-formed
image can raise. -/
abbrev StaysOnImage (prog : List Instr) (t : State) : Prop :=
  HoldsImage prog t ∧ t.ip.toNat < prog.length ∧
    (t.runState = .faulted → t.faultCause = .pointerRange ∨ t.faultCause = .inputRead)

section
variable {prog : List Instr} {s t : State} (hwf : wellFormedImage prog = true) (hlen : prog.length < 2 ^ 28)
  (him : HoldsImage prog s) (hip : s.ip.toNat < prog.length) (hrun : s.runState = .running)
include hwf hlen him hip

theorem advance_in_image {i : Instr} (hf : fetchInstr Config.hw s = some i) (hi : i.isEnd = false) :
    (s.ip + 1).toNat < prog.length := by
  have hn := next_in_image hwf (him.fetchInstr_eq hip ▸ hf) hi
  rwa [ip_add_one_toNat (hn.trans hlen)]

include hrun

theorem exec_staysOnImage {i : Instr} (hf : fetchInstr Config.hw s = some i) (he : exec i s = .next t) :
    StaysOnImage prog t := by
  have hp : prog[s.ip.toNat]? = some i := him.fetchInstr_eq hip ▸ hf
  obtain ⟨hm, _, hl, _⟩ := exec_program_frame he
  refine ⟨him.of_eq hm hl, ?_, exec_faultCause he (not_illegal_of_image hwf hp) (by simp [hrun])⟩
  cases exec_ipMove he with
  | onward e _ _ hend _ _ => exact e ▸ advance_in_image hwf hlen him hip hf hend
  | jumped u e _ _ hi => exact e ▸ jump_target_in_image hwf hp (hi.imp_right And.left)
  | stayed e _ _ => exact e ▸ hip

theorem coreStep_staysOnImage (h : coreStep s = .next t) : StaysOnImage prog t := by
  rcases coreStep_cases h with ⟨_, rfl⟩ | ⟨_, hge, _⟩ | ⟨_, _, i, hf, he⟩
  · exact ⟨him, hip, fun ht => by rw [hrun] at ht; cases ht⟩
  · exact absurd (him.1 ▸ hip) (Nat.not_lt.2 hge)
  · exact exec_staysOnImage hwf hlen him hip hrun hf he

theorem hostAct_staysOnImage {a : HostAction} (ha : a ≠ .powerOn)
    (hin : s.wait = .input → ∃ z, fetchInstr Config.hw s = some (.read z))
    (hout : s.wait = .output → ∃ z, fetchInstr Config.hw s = some (.write z))
    (h : hostAct Config.hw a s = .next t) : StaysOnImage prog t := by
  have hnf : ¬s.runState = .faulted := by simp [hrun]
  have hni : ¬s.runState = .idle := by simp [hrun]
  cases hostAct_effect h with
  | unchanged => exact ⟨him, hip, fun ht => absurd ht hnf⟩
  | poweredOn e => exact absurd e ha
  | reset v _ _ => exact ⟨him, Nat.zero_lt_of_lt hip, fun ht => by cases ht⟩
  | started v _ _ _ hr => exact absurd hr hni
  | lengthSet v _ hr => exact absurd hr hni
  | loaded i w _ hr _ => exact absurd hr hni
  | answered b _ hw _ =>
    obtain ⟨z, hf⟩ := hin hw
    exact ⟨him, advance_in_image hwf hlen him hip hf rfl, fun ht => absurd ht hnf⟩
  | answeredError _ _ => exact ⟨him, hip, fun _ => .inr rfl⟩
  | answeredEnd _ _ => exact ⟨him, hip, fun _ => .inr rfl⟩
  | accepted _ hw _ =>
    obtain ⟨z, hf⟩ := hout hw
    exact ⟨him, advance_in_image hwf hlen him hip hf rfl, fun ht => absurd ht hnf⟩

end

/-- Settles O39: the core's move runs the image's word at `ip`; of the host's interactions with a RUNNING core only an
answer and an acceptance move `ip`, past a READ or a WRITE, which is not the last word. -/
theorem wellFormedImageRaisesNoDecodeFault : Obligations.WellFormedImageRaisesNoDecodeFault := by
  intro prog s t hwf hlen him hip hrun hhost h
  rcases step_cases h with ⟨r, hc, _⟩ | ⟨a, r, hturns, ha⟩
  · exact coreStep_staysOnImage (s := { s with turns := r }) hwf hlen him hip hrun hc
  · obtain ⟨hpower, hin, hout⟩ := hhost a r hturns
    exact hostAct_staysOnImage (s := { s with turns := r }) hwf hlen him hip hrun hpower hin hout ha

end Sys2Proof.Machine
end

section
/-! Proofs of the encoding statements (spec/30_encoding.md): the translator. -/

namespace Sys2Proof.Machine

/-! ## The groups of a token stream (R77, R80) -/

/-- A token starts a group of its own, or it lengthens the run of its own kind that follows. -/
theorem joinRun_cases (t : Token) (gs : List (Token × Nat)) :
    joinRun t gs = (t, 1) :: gs ∨
    (∃ make k rest, t.foldsTo = some make ∧ gs = (t, k) :: rest ∧ joinRun t gs = (t, k + 1) :: rest) := by
  cases gs with
  | nil => exact .inl rfl
  | cons g rest =>
    obtain ⟨u, k⟩ := g
    simp only [joinRun]
    split
    · rename_i h
      obtain ⟨make, hm⟩ := Option.isSome_iff_exists.1 h.2
      exact .inr ⟨make, k, rest, hm, by rw [h.1], by rw [h.1]⟩
    · exact .inl rfl

theorem groupRuns_count_pos (ts : List Token) : ∀ g ∈ groupRuns ts, 1 ≤ g.2 := by
  induction ts with
  | nil => simp [groupRuns]
  | cons t ts ih =>
    rw [groupRuns]
    rcases joinRun_cases t (groupRuns ts) with e | ⟨make, k, rest, _, hgs, e⟩
    · rw [e]; exact List.forall_mem_cons.2 ⟨Nat.le_refl 1, ih⟩
    · rw [hgs] at ih
      rw [e]; exact List.forall_mem_cons.2 ⟨Nat.le_add_left 1 k, (List.forall_mem_cons.1 ih).2⟩

theorem groupRuns_run {t : Token} {make : Operand → Instr} (h : t.foldsTo = some make) (k : Nat) :
    groupRuns (List.replicate (k + 1) t) = [(t, k + 1)] := by
  induction k with
  | zero => rfl
  | succ k ih => rw [List.replicate_succ, groupRuns, ih]; simp [joinRun, h]

theorem groupRuns_single {t : Token} (h : t.foldsTo = none) (k : Nat) :
    groupRuns (List.replicate k t) = List.replicate k (t, 1) := by
  induction k with
  | zero => rfl
  | succ k ih =>
    rw [List.replicate_succ, groupRuns, ih]
    rcases joinRun_cases t (List.replicate k (t, 1)) with e | ⟨make, _, _, hm, _⟩
    · exact e
    · rw [h] at hm; cases hm

/-! ## One group -/

theorem emitRun_eq_ok {make : Operand → Instr} {k : Nat} {e e' : Emitted} :
    emitRun make k e = .ok e' ↔ k < 2 ^ 28 ∧ e' = e.emit (make (BitVec.ofNat 28 k)) := by
  unfold emitRun; split <;> simp_all [eq_comm]

theorem emitGroup_of_foldsTo {t : Token} {make : Operand → Instr} (h : t.foldsTo = some make) (k : Nat) (e : Emitted) :
    emitGroup (t, k) e = emitRun make k e := by
  cases t <;> cases h <;> rfl

/-- A word that is neither END nor a jump. -/
abbrev Straight (i : Instr) : Prop := i.isEnd = false ∧ ∀ u, i ≠ .jump u ∧ i ≠ .jumpIfZero u

theorem foldsTo_word {t : Token} {make : Operand → Instr} (h : t.foldsTo = some make) (n : Operand) :
    Straight (make n) ∧ ((make n).wellFormed = true ↔ n ≠ 0) := by
  cases t <;> cases h <;> simp [Straight, Instr.isEnd, Instr.wellFormed]

theorem count_ne_zero {k : Nat} (h1 : 1 ≤ k) (h2 : k < 2 ^ 28) : BitVec.ofNat 28 k ≠ 0 := by
  intro h
  have := congrArg BitVec.toNat h
  rw [BitVec.toNat_ofNat, Nat.mod_eq_of_lt h2] at this
  exact absurd this (by simp; omega)

/-- What a group that translates does to the emitted code. -/
theorem emitGroup_cases {g : Token × Nat} {e e' : Emitted} (hg : 1 ≤ g.2) (h : emitGroup g e = .ok e') :
    (∃ i, e' = e.emit i ∧ Straight i ∧ i.wellFormed = true) ∨ e' = emitOpen e ∨ emitClose e = .ok e' := by
  obtain ⟨t, k⟩ := g
  cases hf : t.foldsTo with
  | some make =>
    rw [emitGroup_of_foldsTo hf, emitRun_eq_ok] at h
    obtain ⟨hs, hw⟩ := foldsTo_word hf (BitVec.ofNat 28 k)
    exact .inl ⟨_, h.2, hs, hw.2 (count_ne_zero hg h.1)⟩
  | none =>
    cases t with
    | output => cases h; exact .inl ⟨_, rfl, by simp [Straight, Instr.isEnd], rfl⟩
    | input => cases h; exact .inl ⟨_, rfl, by simp [Straight, Instr.isEnd], rfl⟩
    | loopOpen => cases h; exact .inr (.inl rfl)
    | loopClose => exact .inr (.inr h)
    | _ => cases hf

theorem emitClose_eq_ok {e e' : Emitted} (h : emitClose e = .ok e') : ∃ a rest, e.pending = a :: rest ∧
    e' = { code := e.code.set a (.jumpIfZero (BitVec.ofNat 28 (e.code.length + 1))) ++ [.jump (BitVec.ofNat 28 a)],
           pending := rest } := by
  unfold emitClose at h
  split at h
  · cases h
  · rename_i a rest hp; cases h; exact ⟨a, rest, hp, rfl⟩

theorem emitGroup_length {g : Token × Nat} {e e' : Emitted} (hg : 1 ≤ g.2) (h : emitGroup g e = .ok e') :
    e'.code.length = e.code.length + 1 := by
  rcases emitGroup_cases hg h with ⟨i, rfl, _⟩ | rfl | h
  · exact List.length_append
  · exact List.length_append
  · obtain ⟨a, rest, _, rfl⟩ := emitClose_eq_ok h
    rw [List.length_append, List.length_set]; rfl

/-! ## The brackets of the emitted code (R78, R81) -/

/-- Words that leave no bracket open and close none before them. -/
abbrev Balanced (xs : List Instr) (idx : Nat) : Prop := matchJumps xs idx [] = some []

theorem Balanced.append {xs ys : List Instr} {idx : Nat} (hx : Balanced xs idx) (hy : Balanced ys (idx + xs.length)) :
    Balanced (xs ++ ys) idx := by
  rw [Balanced, matchJumps_append, hx]; exact hy

theorem balanced_straight {i : Instr} (h : Straight i) (idx : Nat) : Balanced [i] idx := by
  cases i with
  | jump u => exact absurd rfl (h.2 u).1
  | jumpIfZero u => exact absurd rfl (h.2 u).2
  | _ => rfl

/-- A loop is balanced when its two jumps have the operands of R78. -/
theorem balanced_loop {mid : List Instr} {idx : Nat} {u t : Operand} (hm : Balanced mid (idx + 1))
    (hu : u.toNat = idx + 1 + mid.length + 1) (ht : t.toNat = idx) :
    Balanced (.jumpIfZero u :: (mid ++ [.jump t])) idx := by
  have hmid : matchJumps mid (idx + 1) [(idx, u)] = some [(idx, u)] := matchJumps_frame mid _ [] [] [(idx, u)] hm
  rw [Balanced, matchJumps, matchJumps_append, hmid, Option.bind_some]
  exact matchJumps_jump.2 ⟨u, [], by rw [ht], hu, rfl⟩

/-- The emitted code with the indices of its open loops, innermost first: balanced code, or such code, the placeholder of
an open loop, and balanced code after it. -/
inductive Nested : List Instr → List Nat → Prop where
  | closed (code : List Instr) (h : Balanced code 0) : Nested code []
  | opened (pre mid : List Instr) (pending : List Nat) (hp : Nested pre pending) (hm : Balanced mid (pre.length + 1)) :
      Nested (pre ++ .jumpIfZero 0 :: mid) (pre.length :: pending)

theorem Nested.balanced {code : List Instr} (h : Nested code []) : Balanced code 0 := by
  cases h; assumption

theorem Nested.append {code seg : List Instr} {pending : List Nat} (h : Nested code pending)
    (hs : Balanced seg code.length) : Nested (code ++ seg) pending := by
  cases h with
  | closed code h => exact .closed _ (h.append (by rwa [Nat.zero_add]))
  | opened pre mid pending hp hm =>
    rw [List.append_assoc, List.cons_append]
    refine .opened pre _ pending hp (hm.append ?_)
    rwa [List.length_append, List.length_cons, Nat.add_comm mid.length, ← Nat.add_assoc] at hs

/-- Closing the innermost loop leaves balanced code in its place. -/
theorem Nested.close {code : List Instr} {a : Nat} {pending : List Nat} (h : Nested code (a :: pending))
    (hlen : code.length + 1 < 2 ^ 28) :
    Nested (code.set a (.jumpIfZero (BitVec.ofNat 28 (code.length + 1))) ++ [.jump (BitVec.ofNat 28 a)]) pending := by
  cases h with
  | opened pre mid _ hp hm =>
    have hl : (pre ++ Instr.jumpIfZero 0 :: mid).length = pre.length + 1 + mid.length := by
      rw [List.length_append, List.length_cons]; omega
    rw [hl] at hlen ⊢
    rw [List.set_append_right _ _ (Nat.le_refl _), Nat.sub_self, List.set_cons_zero, List.append_assoc, List.cons_append]
    refine hp.append (balanced_loop hm ?_ ?_)
    · rw [BitVec.toNat_ofNat, Nat.mod_eq_of_lt hlen]
    · rw [BitVec.toNat_ofNat, Nat.mod_eq_of_lt (by omega)]

/-! ## The translator's invariant (R86) -/

/-- What holds of the translator's state after every group. -/
structure Translated (e : Emitted) : Prop where
  words : ∀ i ∈ e.code, i.wellFormed = true ∧ i.isEnd = false
  nested : Nested e.code e.pending

theorem Translated.after_group {g : Token × Nat} {e e' : Emitted} (h : Translated e) (hg : 1 ≤ g.2)
    (hlen : e.code.length + 1 < 2 ^ 28) (he : emitGroup g e = .ok e') : Translated e' := by
  have snoc {code : List Instr} {i : Instr} (hc : ∀ j ∈ code, j.wellFormed = true ∧ j.isEnd = false)
      (hi : i.wellFormed = true ∧ i.isEnd = false) : ∀ j ∈ code ++ [i], j.wellFormed = true ∧ j.isEnd = false :=
    List.forall_mem_append.2 ⟨hc, List.forall_mem_singleton.2 hi⟩
  rcases emitGroup_cases hg he with ⟨i, rfl, hs, hw⟩ | rfl | he
  · exact ⟨snoc h.words ⟨hw, hs.1⟩, h.nested.append (balanced_straight hs _)⟩
  · exact ⟨snoc h.words ⟨rfl, rfl⟩, .opened e.code [] e.pending h.nested rfl⟩
  · obtain ⟨a, rest, hp, rfl⟩ := emitClose_eq_ok he
    refine ⟨snoc (fun i hi => ?_) ⟨rfl, rfl⟩, (hp ▸ h.nested).close hlen⟩
    rcases List.mem_or_eq_of_mem_set hi with hi | rfl
    · exact h.words i hi
    · exact ⟨rfl, rfl⟩

theorem emitGroups_cons {g : Token × Nat} {gs : List (Token × Nat)} {e m : Emitted} (h : emitGroup g e = .ok m) :
    emitGroups (g :: gs) e = emitGroups gs m := by
  rw [emitGroups, h]

theorem emitGroups_cons_eq_ok {g : Token × Nat} {gs : List (Token × Nat)} {e e' : Emitted}
    (h : emitGroups (g :: gs) e = .ok e') : ∃ m, emitGroup g e = .ok m ∧ emitGroups gs m = .ok e' := by
  rw [emitGroups] at h
  split at h
  · exact ⟨_, ‹_›, h⟩
  · cases h

theorem emitGroups_length {gs : List (Token × Nat)} {e e' : Emitted} (hg : ∀ g ∈ gs, 1 ≤ g.2)
    (h : emitGroups gs e = .ok e') : e'.code.length = e.code.length + gs.length := by
  induction gs generalizing e with
  | nil => cases h; rfl
  | cons g gs ih =>
    obtain ⟨hg1, hg⟩ := List.forall_mem_cons.1 hg
    obtain ⟨m, h1, h2⟩ := emitGroups_cons_eq_ok h
    rw [ih hg h2, emitGroup_length hg1 h1, List.length_cons]; omega

theorem Translated.after_groups {gs : List (Token × Nat)} {e e' : Emitted} (h : Translated e) (hg : ∀ g ∈ gs, 1 ≤ g.2)
    (hlen : e.code.length + gs.length < 2 ^ 28) (he : emitGroups gs e = .ok e') : Translated e' := by
  induction gs generalizing e with
  | nil => cases he; exact h
  | cons g gs ih =>
    obtain ⟨hg1, hg⟩ := List.forall_mem_cons.1 hg
    obtain ⟨m, h1, h2⟩ := emitGroups_cons_eq_ok he
    rw [List.length_cons] at hlen
    have hm := emitGroup_length hg1 h1
    exact ih (h.after_group hg1 (by omega) h1) hg (by omega) h2

/-! ## A whole program (R84, R85) -/

theorem finishProgram_eq_ok {c : Config} {e : Emitted} {prog : List Instr} :
    finishProgram c e = .ok prog ↔
      e.pending = [] ∧ e.code.length + 1 ≤ c.progDepth ∧ prog = e.code ++ [.endRun 0] := by
  unfold finishProgram Emitted.currentLine
  split
  · simp_all
  · split <;> simp_all [eq_comm]

theorem translateTokens_of_ok {c : Config} {ts : List Token} {e : Emitted}
    (h : emitGroups (groupRuns ts) ⟨[], []⟩ = .ok e) : translateTokens c ts = finishProgram c e := by
  rw [translateTokens, h]

theorem translateTokens_eq_ok {c : Config} {ts : List Token} {prog : List Instr}
    (h : translateTokens c ts = .ok prog) :
    ∃ e, emitGroups (groupRuns ts) ⟨[], []⟩ = .ok e ∧ finishProgram c e = .ok prog := by
  unfold translateTokens at h
  split at h
  · exact ⟨_, ‹_›, h⟩
  · cases h

theorem endsOnce_cons {i : Instr} {xs : List Instr} (hi : i.isEnd = false) (h : endsOnce xs = true) :
    endsOnce (i :: xs) = true := by
  cases xs with
  | nil => cases h
  | cons j xs => rw [endsOnce, hi, h]; rfl

theorem endsOnce_append_end {code : List Instr} (h : ∀ i ∈ code, i.isEnd = false) :
    endsOnce (code ++ [.endRun 0]) = true := by
  induction code with
  | nil => rfl
  | cons i code ih =>
    obtain ⟨hi, hc⟩ := List.forall_mem_cons.1 h
    exact endsOnce_cons hi (ih hc)

theorem wellFormedImage_append_end {code : List Instr} (hw : ∀ i ∈ code, i.wellFormed = true ∧ i.isEnd = false)
    (hb : Balanced code 0) : wellFormedImage (code ++ [.endRun 0]) = true := by
  have h1 : endsOnce (code ++ [.endRun 0]) = true := endsOnce_append_end fun i hi => (hw i hi).2
  have h2 : ∀ i ∈ code ++ [.endRun 0], i.wellFormed = true :=
    List.forall_mem_append.2 ⟨fun i hi => (hw i hi).1, List.forall_mem_singleton.2 rfl⟩
  have h3 : jumpsPaired (code ++ [.endRun 0]) = true := beq_iff_eq.2 (hb.append rfl)
  rw [wellFormedImage, h1, List.all_eq_true.2 h2, h3]; rfl

/-- Settles O58: at the end no loop is open, so the emitted code is balanced, and END follows it. -/
theorem translationsAreWellFormedImages : Obligations.TranslationsAreWellFormedImages := by
  intro c source prog hc h
  obtain ⟨e, he, hfin⟩ := translateTokens_eq_ok h
  obtain ⟨hp, hfit, rfl⟩ := finishProgram_eq_ok.1 hfin
  obtain ⟨_, _, _, hdepth⟩ := hc
  have hpos := groupRuns_count_pos (lex source)
  have hlen := emitGroups_length hpos he
  have start : Translated ⟨[], []⟩ := ⟨by simp, .closed [] rfl⟩
  obtain ⟨words, nested⟩ := start.after_groups hpos (by omega) he
  rw [hp] at nested
  exact ⟨wellFormedImage_append_end words nested.balanced, by rwa [List.length_append]⟩

/-! ## Runs (R77, R79, R80) -/

theorem emitGroups_replicate {g : Token × Nat} {i : Instr} (h : ∀ e, emitGroup g e = .ok (e.emit i)) (k : Nat)
    (e : Emitted) :
    emitGroups (List.replicate k g) e = .ok { e with code := e.code ++ List.replicate k i } := by
  induction k generalizing e with
  | zero => simp [emitGroups]
  | succ k ih =>
    rw [List.replicate_succ, emitGroups_cons (h e), ih]
    simp [Emitted.emit, List.replicate_succ]

theorem translateTokens_single {c : Config} {t : Token} {i : Instr} {k : Nat} (ht : t.foldsTo = none)
    (h : ∀ e, emitGroup (t, 1) e = .ok (e.emit i)) (hk : k + 1 ≤ c.progDepth) :
    translateTokens c (List.replicate k t) = .ok (List.replicate k i ++ [.endRun 0]) := by
  have he := emitGroups_replicate h k ⟨[], []⟩
  rw [← groupRuns_single ht] at he
  rw [translateTokens_of_ok he, finishProgram_eq_ok]
  exact ⟨rfl, by simpa using hk, rfl⟩

/-- Settles O59: a run is one group; output and input tokens are groups of their own. -/
theorem runsFoldIntoOneInstruction : Obligations.RunsFoldIntoOneInstruction := by
  intro c k hk
  refine ⟨fun t make hlt hd ht => ?_, translateTokens_single rfl fun _ => rfl,
    translateTokens_single rfl fun _ => rfl⟩
  have hg : emitGroup (t, k) ⟨[], []⟩ = .ok (Emitted.emit ⟨[], []⟩ (make (BitVec.ofNat 28 k))) := by
    rw [emitGroup_of_foldsTo ht]; exact emitRun_eq_ok.2 ⟨hlt, rfl⟩
  have hr := groupRuns_run ht (k - 1)
  rw [Nat.sub_add_cancel hk] at hr
  rw [translateTokens_of_ok (hr ▸ emitGroups_cons hg), finishProgram_eq_ok]
  exact ⟨rfl, hd, rfl⟩

/-! ## Brackets (R82, R83) -/

theorem loopDepth_of_foldsTo {t : Token} {make : Operand → Instr} (h : t.foldsTo = some make) (ts : List Token)
    (d : Nat) : loopDepth (t :: ts) d = loopDepth ts d := by
  cases t <;> cases h <;> rfl

theorem loopDepth_cons_congr {xs ys : List Token} (h : ∀ d, loopDepth xs d = loopDepth ys d) (t : Token) (d : Nat) :
    loopDepth (t :: xs) d = loopDepth (t :: ys) d := by
  cases t with
  | loopClose => cases d <;> simp only [loopDepth, h]
  | _ => exact h _

/-- Folding runs changes nothing of the loops. -/
theorem loopDepth_groupRuns (ts : List Token) (d : Nat) :
    loopDepth ((groupRuns ts).map Prod.fst) d = loopDepth ts d := by
  induction ts generalizing d with
  | nil => rfl
  | cons t ts ih =>
    rw [← loopDepth_cons_congr ih, groupRuns]
    rcases joinRun_cases t (groupRuns ts) with e | ⟨make, k, rest, hm, hgs, e⟩
    · rw [e]; rfl
    · rw [e, hgs]; exact (loopDepth_of_foldsTo hm _ d).symm

/-- A group within the limits of R85 translates, with the open loops that `loopDepth` counts, or it is a loop-close that
meets no open loop. -/
theorem emitGroup_depth {g : Token × Nat} (hg : g.2 < 2 ^ 28) (e : Emitted) :
    (∃ m, emitGroup g e = .ok m ∧ ∀ ts, loopDepth (g.1 :: ts) e.pending.length = loopDepth ts m.pending.length) ∨
    (emitGroup g e = .error .unexpectedToken ∧ ∀ ts, loopDepth (g.1 :: ts) e.pending.length = none) := by
  obtain ⟨t, k⟩ := g
  cases hf : t.foldsTo with
  | some make =>
    rw [emitGroup_of_foldsTo hf]
    exact .inl ⟨_, emitRun_eq_ok.2 ⟨hg, rfl⟩, fun ts => loopDepth_of_foldsTo hf ts _⟩
  | none =>
    cases t with
    | output => exact .inl ⟨_, rfl, fun _ => rfl⟩
    | input => exact .inl ⟨_, rfl, fun _ => rfl⟩
    | loopOpen => exact .inl ⟨_, rfl, fun _ => rfl⟩
    | loopClose =>
      obtain ⟨code, pending⟩ := e
      cases pending with
      | nil => exact .inr ⟨rfl, fun _ => rfl⟩
      | cons a rest => exact .inl ⟨_, rfl, fun _ => rfl⟩
    | _ => cases hf

theorem emitGroups_depth {gs : List (Token × Nat)} (hg : ∀ g ∈ gs, g.2 < 2 ^ 28) (e : Emitted) :
    (∃ e', emitGroups gs e = .ok e' ∧ loopDepth (gs.map Prod.fst) e.pending.length = some e'.pending.length) ∨
    (emitGroups gs e = .error .unexpectedToken ∧ loopDepth (gs.map Prod.fst) e.pending.length = none) := by
  induction gs generalizing e with
  | nil => exact .inl ⟨e, rfl, rfl⟩
  | cons g gs ih =>
    obtain ⟨hg1, hg⟩ := List.forall_mem_cons.1 hg
    rw [List.map_cons]
    rcases emitGroup_depth hg1 e with ⟨m, h, hd⟩ | ⟨h, hd⟩
    · rw [emitGroups_cons h, hd]; exact ih hg m
    · exact .inr ⟨by rw [emitGroups, h], hd _⟩

/-- Settles O60: the translator's open loops are those that `loopDepth` counts. -/
theorem bracketErrors : Obligations.BracketErrors := by
  intro c ts hg hfit
  have hgroups := emitGroups_depth hg ⟨[], []⟩
  rw [loopDepth_groupRuns] at hgroups
  change (∃ e, _ ∧ loopDepth ts 0 = _) ∨ (_ ∧ loopDepth ts 0 = _) at hgroups
  rcases hgroups with ⟨e, he, hd⟩ | ⟨he, hd⟩
  · rw [hd, translateTokens_of_ok he]
    refine ⟨fun h => (by cases h), fun d h => ?_, fun h => ?_⟩
    · obtain ⟨a, rest, hp⟩ := List.exists_cons_of_length_eq_add_one (Option.some.inj h)
      rw [finishProgram, hp]
    · have hp := List.eq_nil_of_length_eq_zero (Option.some.inj h)
      have hlen := emitGroups_length (groupRuns_count_pos ts) he
      rw [List.length_nil, Nat.zero_add] at hlen
      exact ⟨_, finishProgram_eq_ok.2 ⟨hp, hlen ▸ hfit, rfl⟩, by rw [List.length_append, hlen]; rfl⟩
  · rw [hd, translateTokens, he]
    exact ⟨fun _ => rfl, fun d h => (by cases h), fun h => (by cases h)⟩

end Sys2Proof.Machine
end

section
/-! Proofs of the cell arithmetic statements (spec/40_cell_arithmetic.md): ADD_BYTE and SUB_BYTE apply a function to the
cell at the data pointer, and the laws of R102 are laws of those functions. -/

namespace Sys2Proof.Machine

/-! ## Applying a function to the implicit cell -/

/-- The state after the cell at the data pointer becomes `f` of itself and the core advances: the pseudocode of R100
and R101 with the arithmetic left open. -/
def updateCell (f : Byte → Byte) (s : State) : State :=
  advance { s with tape := s.tape.set (cellAddr s) (f (s.tape.get (cellAddr s))) }

@[simp] theorem updateCell_dp (f : Byte → Byte) (s : State) : (updateCell f s).dp = s.dp := rfl
@[simp] theorem updateCell_runState (f : Byte → Byte) (s : State) : (updateCell f s).runState = s.runState := rfl

theorem updateCell_frame (f : Byte → Byte) (s : State) :
    updateCell f s = { s with tape := (updateCell f s).tape, ip := s.ip + 1 } := rfl

theorem memRead_updateCell_same {c : Config} {s : State} {v : Byte} (f : Byte → Byte)
    (h : memRead c (cellAddr s) s = some v) : memRead c (cellAddr s) (updateCell f s) = some (f v) := by
  obtain ⟨ha, rfl⟩ := memRead_eq_some.1 h
  exact memRead_eq_some.2 ⟨ha, Tape.get_set_same s.tape _ _⟩

theorem memRead_updateCell_other {c : Config} {a : Nat} {s : State} (f : Byte → Byte) (ha : a ≠ cellAddr s) :
    memRead c a (updateCell f s) = memRead c a s :=
  memRead_of_tape_set rfl ha

/-- The cells after two updates are those after one update by the composition. -/
theorem memRead_updateCell_comp (g f : Byte → Byte) (s : State) (c : Config) (a : Nat) :
    memRead c a (updateCell g (updateCell f s)) = memRead c a (updateCell (g ∘ f) s) := by
  by_cases ha : a = cellAddr s
  · subst ha
    simp [memRead, updateCell, cellAddr]
  · rw [memRead_updateCell_other g (s := updateCell f s) ha, memRead_updateCell_other f ha,
      memRead_updateCell_other (g ∘ f) ha]

theorem memRead_updateCell_id (s : State) (c : Config) (a : Nat) :
    memRead c a (updateCell id s) = memRead c a s := by
  by_cases ha : a = cellAddr s
  · subst ha
    simp [memRead, updateCell]
  · exact memRead_updateCell_other id ha

theorem memRead_updateCell_iterate (f : Byte → Byte) (k : Nat) (s : State) (c : Config) (a : Nat) :
    memRead c a ((updateCell f)^[k] s) = memRead c a (updateCell f^[k] s) := by
  induction k generalizing s with
  | zero => exact (memRead_updateCell_id s c a).symm
  | succ k ih => rw [Function.iterate_succ_apply, ih, memRead_updateCell_comp, Function.iterate_succ]

/-! ## The two forms as updates of the cell (R100, R101) -/

/-- The instruction applies `f` to the cell at the data pointer, wherever that cell exists. -/
def UpdatesCell (i : Instr) (f : Byte → Byte) : Prop :=
  ∀ s : State, s.dp.toNat < Config.hw.tapeLen → exec i s = .next (updateCell f s)

theorem addByte_updatesCell (n : Operand) : UpdatesCell (.addByte n) (cellAdd · n.toNat) :=
  fun _ hd => exec_addByte_next.2 ⟨hd, rfl⟩

theorem subByte_updatesCell (n : Operand) : UpdatesCell (.subByte n) (cellSub · n.toNat) :=
  fun _ hd => exec_subByte_next.2 ⟨hd, rfl⟩

/-- Settles O9: the update of the cell, with the sum as `cellAdd_toNat` has it. -/
theorem addByteAddsModulo256 : Obligations.AddByteAddsModulo256 := by
  refine ⟨fun n => decodeOfEncode (.addByte n), fun n s v hv => ?_⟩
  exact ⟨_, _, addByte_updatesCell n s (memRead_eq_some.1 hv).1, memRead_updateCell_same _ hv,
    cellAdd_toNat v n.toNat, fun _ => memRead_updateCell_other _, updateCell_frame _ s⟩

/-- Settles O10: the update of the cell, with the non-negative residue as `cellSub_toNat` has it. -/
theorem subByteSubtractsModulo256 : Obligations.SubByteSubtractsModulo256 := by
  refine ⟨fun n => decodeOfEncode (.subByte n), fun n s v hv => ?_⟩
  exact ⟨_, _, subByte_updatesCell n s (memRead_eq_some.1 hv).1, memRead_updateCell_same _ hv,
    cellSub_toNat v n.toNat, fun _ => memRead_updateCell_other _, updateCell_frame _ s⟩

/-! ## Straight lines of updates -/

section
variable {i j : Instr} {f g : Byte → Byte} {s : State}

theorem UpdatesCell.execAll_cons (hi : UpdatesCell i f) (hr : s.runState = .running)
    (hd : s.dp.toNat < Config.hw.tapeLen) (rest : List Instr) :
    execAll (i :: rest) s = execAll rest (updateCell f s) :=
  Machine.execAll_cons (hi s hd) hr

theorem UpdatesCell.execAll_pair (hi : UpdatesCell i f) (hj : UpdatesCell j g) (hr : s.runState = .running)
    (hd : s.dp.toNat < Config.hw.tapeLen) : execAll [i, j] s = .next (updateCell g (updateCell f s)) :=
  (hi.execAll_cons hr hd [j]).trans (hj.execAll_cons (s := updateCell f s) hr hd [])

theorem UpdatesCell.execAll_replicate (hi : UpdatesCell i f) (k : Nat) (hr : s.runState = .running)
    (hd : s.dp.toNat < Config.hw.tapeLen) : execAll (List.replicate k i) s = .next ((updateCell f)^[k] s) := by
  induction k generalizing s with
  | zero => rfl
  | succ k ih => rw [List.replicate_succ, hi.execAll_cons hr hd]; exact ih hr hd

end

/-! ## The laws (R102) -/

theorem cellAdd_zero (v : Byte) : cellAdd v 0 = v := by
  apply BitVec.eq_of_toNat_eq
  have := v.isLt
  rw [cellAdd_toNat]; omega

theorem cellSub_zero (v : Byte) : cellSub v 0 = v := by
  simpa only [cellAdd_zero] using cellSub_cellAdd v 0

/-- A count acts as its residue modulo 256. -/
theorem cellAdd_mod (v : Byte) (k : Nat) : cellAdd v (k % 256) = cellAdd v k := by
  apply BitVec.eq_of_toNat_eq
  simp only [cellAdd_toNat]; omega

theorem residue_toNat (k : Nat) : (BitVec.ofNat 28 (k % 256)).toNat = k % 256 := by
  rw [BitVec.toNat_ofNat]; omega

section
variable {op : Byte → Nat → Byte} (h0 : ∀ v, op v 0 = v) (hadd : ∀ v j k, op (op v j) k = op v (j + k))
include h0 hadd

/-- Where counts add up, `k` counts of 1 are the count `k`. -/
theorem iterate_count_one (k : Nat) : (op · 1)^[k] = (op · k) := by
  induction k with
  | zero => exact funext fun v => (h0 v).symm
  | succ k ih =>
    rw [Function.iterate_succ, ih]
    funext v
    rw [Function.comp_apply, hadd, Nat.add_comm]

/-- Where counts add up, the folded instruction leaves the cells that `k` unit instructions leave. -/
theorem folded_eq_units {make : Operand → Instr} (hm : ∀ n, UpdatesCell (make n) (op · n.toNat)) {s : State}
    (hr : s.runState = .running) (hd : s.dp.toNat < Config.hw.tapeLen) (k : Operand) :
    ∃ t u, exec (make k) s = .next t ∧ execAll (List.replicate k.toNat (make 1)) s = .next u ∧
      ∀ a, memRead Config.hw a t = memRead Config.hw a u := by
  have hone : UpdatesCell (make 1) (op · 1) := hm 1
  refine ⟨_, _, hm k s hd, hone.execAll_replicate k.toNat hr hd, fun a => ?_⟩
  rw [memRead_updateCell_iterate, iterate_count_one h0 hadd]

end

/-- Adding two counts is adding the residue of their sum, as the operand of one instruction holds it. -/
theorem cellAdd_comp_cellAdd (a b : Operand) :
    (cellAdd · b.toNat) ∘ (cellAdd · a.toNat) =
      (cellAdd · (BitVec.ofNat 28 ((a.toNat + b.toNat) % 256)).toNat) := by
  funext v
  rw [Function.comp_apply, cellAdd_add, residue_toNat, cellAdd_mod]

theorem cellSub_comp_cellAdd (a : Operand) : (cellSub · a.toNat) ∘ (cellAdd · a.toNat) = id :=
  funext fun v => cellSub_cellAdd v a.toNat

/-- Settles O11: the straight lines are updates of one cell, by functions that agree. -/
theorem cellArithmeticLaws : Obligations.CellArithmeticLaws := by
  intro s hr hd
  refine ⟨folded_eq_units cellAdd_zero cellAdd_add addByte_updatesCell hr hd,
    folded_eq_units cellSub_zero cellSub_sub subByte_updatesCell hr hd, fun a b => ?_, fun a => ?_⟩
  · refine ⟨_, _, (addByte_updatesCell a).execAll_pair (addByte_updatesCell b) hr hd, addByte_updatesCell _ s hd,
      fun x => ?_⟩
    rw [memRead_updateCell_comp, cellAdd_comp_cellAdd]
  · refine ⟨_, (addByte_updatesCell a).execAll_pair (subByte_updatesCell a) hr hd, fun x => ?_⟩
    rw [memRead_updateCell_comp, cellSub_comp_cellAdd, memRead_updateCell_id]

end Sys2Proof.Machine
end

section
/-! Proofs of the pointer arithmetic statements (spec/41_pointer_arithmetic.md): ADD_PTR and SUB_PTR hand the pointer
arithmetic unit a candidate at a distance from the data pointer, and a run of unit moves lands where the unit would send
its whole distance. -/

namespace Sys2Proof.Machine

/-! ## One move (R110, R111, R112) -/

theorem movePtr_dp_inside {c : Config} (hc : c.wf) {x : Int} (s : State) (h0 : 0 ≤ x) (hx : x < c.tapeLen) :
    ((movePtr c x s).dp.toNat : Int) = x := by
  obtain ⟨_, hlen, _, _⟩ := hc
  lift x to Nat using h0
  rw [movePtr_inside (by omega), advance_dp, setDp_dp, BitVec.toNat_ofNat, Nat.mod_eq_of_lt (by omega)]

theorem movePtr_inside_frame {c : Config} {x : Int} (s : State) (h0 : 0 ≤ x) (hx : x < c.tapeLen) :
    movePtr c x s = { s with dp := (movePtr c x s).dp, ip := s.ip + 1 } := by
  lift x to Nat using h0
  rw [movePtr_inside (by omega)]
  rfl

/-- Settles O14: the three ranges of the candidate are the three cases of the unit. -/
theorem pointerUnitChecksBothBounds : Obligations.PointerUnitChecksBothBounds := by
  refine ⟨fun n s => ⟨exec_addPtr n s, exec_subPtr n s⟩, fun c x s hc => ⟨fun hx => ?_, fun hx => ?_, fun h0 hx => ?_⟩⟩
  · rw [movePtr_above hx]; exact ⟨rfl, rfl⟩
  · rw [movePtr_below hx]; exact ⟨rfl, rfl⟩
  · exact ⟨movePtr_dp_inside hc s h0 hx, movePtr_inside_frame s h0 hx⟩

/-- Settles O12: the candidate is not negative, so it is inside the tape or above it. -/
theorem addPtrMovesOrFaults : Obligations.AddPtrMovesOrFaults := by
  refine ⟨fun n => decodeOfEncode (.addPtr n), fun n s => ?_⟩
  rw [exec_addPtr, ← Int.natCast_add]
  exact ⟨fun h => congrArg _ (movePtr_inside h), fun h => congrArg _ (movePtr_above (Int.ofNat_le.2 h))⟩

/-- Settles O13: from a data pointer in the tape the candidate is not above it, so it is inside or negative. -/
theorem subPtrMovesOrFaults : Obligations.SubPtrMovesOrFaults := by
  refine ⟨fun n => decodeOfEncode (.subPtr n), fun n s hd => ?_⟩
  rw [exec_subPtr]
  refine ⟨fun h => ?_, fun h => congrArg _ (movePtr_below (by omega))⟩
  rw [← Int.ofNat_sub h]
  exact congrArg _ (movePtr_inside (by omega))

/-! ## Where a move lands -/

/-- The two ends of a move to the candidate `x`: the core goes on with `x` in the data pointer, or the candidate is
outside the tape and the core has stopped in FAULTED. -/
inductive LandsAt (x : Int) (t : State) : Prop where
  | inside (h0 : 0 ≤ x) (hx : x < Config.hw.tapeLen) (hr : t.runState = .running) (hd : (t.dp.toNat : Int) = x)
  | outside (hx : x < 0 ∨ Config.hw.tapeLen ≤ x) (hr : t.runState = .faulted)

theorem movePtr_landsAt {s : State} (hr : s.runState = .running) (x : Int) :
    LandsAt x (movePtr Config.hw x s) := by
  rcases movePtr_cases Config.hw x s with ⟨hx, e⟩ | ⟨hx, e⟩ | ⟨k, rfl, hk, e⟩
  · exact .outside (.inr hx) (by rw [e, raise_runState])
  · exact .outside (.inl hx) (by rw [e, raise_runState])
  · have h0 : (0 : Int) ≤ k := Int.natCast_nonneg k
    have hx : (k : Int) < Config.hw.tapeLen := Int.ofNat_lt.2 hk
    exact .inside h0 hx (by rw [e, advance_runState, setDp_runState, hr]) (movePtr_dp_inside Config.hw_wf s h0 hx)

/-- The unit checks before it writes: a move that faults leaves the data pointer. -/
theorem movePtr_dp_of_faulted {x : Int} {s : State} (hr : s.runState = .running)
    (h : (movePtr Config.hw x s).runState = .faulted) : (movePtr Config.hw x s).dp = s.dp := by
  rcases movePtr_cases Config.hw x s with ⟨_, e⟩ | ⟨_, e⟩ | ⟨k, _, _, e⟩
  · rw [e, raise_dp]
  · rw [e, raise_dp]
  · rw [e, advance_runState, setDp_runState, hr] at h; cases h

section
variable {x : Int} {t u : State} (ht : LandsAt x t) (hu : LandsAt x u)
include ht

theorem LandsAt.faulted_iff : t.runState = .faulted ↔ x < 0 ∨ Config.hw.tapeLen ≤ x := by
  cases ht with
  | inside h0 hx hr => rw [hr]; exact iff_of_false nofun (by omega)
  | outside hx hr => exact iff_of_true hr hx

theorem LandsAt.dp_of_not_faulted (h : t.runState ≠ .faulted) : (t.dp.toNat : Int) = x := by
  cases ht with
  | inside _ _ _ hd => exact hd
  | outside _ hr => exact absurd hr h

include hu

theorem LandsAt.faulted_congr : t.runState = .faulted ↔ u.runState = .faulted :=
  ht.faulted_iff.trans hu.faulted_iff.symm

theorem LandsAt.dp_congr (h : t.runState ≠ .faulted) : t.dp = u.dp := by
  have hu' := hu.dp_of_not_faulted (mt (ht.faulted_congr hu).2 h)
  exact BitVec.eq_of_toNat_eq (Int.ofNat_inj.1 ((ht.dp_of_not_faulted h).trans hu'.symm))

end

/-! ## Folded and unit moves (R113) -/

/-- The instruction sends the pointer arithmetic unit to the distance `d` from the data pointer. -/
def MovesPtrBy (i : Instr) (d : Int) : Prop :=
  ∀ s : State, exec i s = .next (movePtr Config.hw (s.dp.toNat + d) s)

theorem addPtr_movesPtrBy (n : Operand) : MovesPtrBy (.addPtr n) n.toNat := exec_addPtr n

theorem subPtr_movesPtrBy (n : Operand) : MovesPtrBy (.subPtr n) (-n.toNat) := exec_subPtr n

theorem execAll_cons_stopped {i : Instr} {rest : List Instr} {s t : State} (h : exec i s = .next t)
    (hr : t.runState ≠ .running) : execAll (i :: rest) s = .next t := by
  simp [execAll, h, hr]

/-- A run of unit moves lands where the unit would send the whole distance: once a unit move leaves the tape, the whole
distance lies beyond the same bound. -/
theorem MovesPtrBy.units_landAt {unit : Instr} {d : Int} (hi : MovesPtrBy unit d) (hd : d = 1 ∨ d = -1) (k : Nat)
    {s : State} (hr : s.runState = .running) (hs : s.dp.toNat < Config.hw.tapeLen) :
    ∃ u, execAll (List.replicate k unit) s = .next u ∧ LandsAt (s.dp.toNat + k * d) u := by
  induction k generalizing s with
  | zero => exact ⟨s, rfl, .inside (by omega) (by omega) hr (by omega)⟩
  | succ k ih =>
    rw [List.replicate_succ]
    have hsum : (s.dp.toNat : Int) + (k + 1 : Nat) * d = (s.dp.toNat + d) + k * d := by push_cast; ring
    rw [hsum]
    cases movePtr_landsAt hr (s.dp.toNat + d) with
    | inside h0 hx hr' hdp =>
      obtain ⟨u, hrest, landed⟩ := ih hr' (by omega)
      rw [hdp] at landed
      exact ⟨u, (execAll_cons (hi s) hr').trans hrest, landed⟩
    | outside hx hr' =>
      refine ⟨_, execAll_cons_stopped (hi s) (by rw [hr']; nofun), .outside ?_ hr'⟩
      rcases hd with rfl | rfl <;> omega

/-- A folded move over the distance of `k` unit moves ends as they do, and faults before it moves. -/
theorem MovesPtrBy.folded_ends_as_units {unit folded : Instr} {d : Int} {k : Nat} (hu : MovesPtrBy unit d)
    (hf : MovesPtrBy folded (k * d)) (hd : d = 1 ∨ d = -1) {s : State} (hr : s.runState = .running)
    (hs : s.dp.toNat < Config.hw.tapeLen) :
    ∃ t u, exec folded s = .next t ∧ execAll (List.replicate k unit) s = .next u ∧
      (t.runState = .faulted ↔ u.runState = .faulted) ∧
      (t.runState = .faulted → t.dp = s.dp) ∧
      (t.runState ≠ .faulted → t.dp = u.dp) := by
  obtain ⟨u, hunits, landed⟩ := hu.units_landAt hd k hr hs
  have moved := movePtr_landsAt hr (s.dp.toNat + k * d)
  exact ⟨_, u, hf s, hunits, moved.faulted_congr landed, movePtr_dp_of_faulted hr, moved.dp_congr landed⟩

/-- Settles O15: the folded move has the distance of its unit moves in either direction. -/
theorem foldedPointerMoveFaultsAlike : Obligations.FoldedPointerMoveFaultsAlike := by
  rintro k s unit folded hr hs (⟨rfl, rfl⟩ | ⟨rfl, rfl⟩)
  · have hf : MovesPtrBy (.addPtr k) (k.toNat * 1) := by rw [mul_one]; exact addPtr_movesPtrBy k
    exact (addPtr_movesPtrBy 1).folded_ends_as_units hf (.inl rfl) hr hs
  · have hf : MovesPtrBy (.subPtr k) (k.toNat * -1) := by rw [mul_neg_one]; exact subPtr_movesPtrBy k
    exact (subPtr_movesPtrBy 1).folded_ends_as_units hf (.inr rfl) hr hs

end Sys2Proof.Machine
end

section
/-! Proofs of the stream statements (spec/42_io.md): what WRITE and READ do when the host is ready and when it is not, and
the completion of a held one as the instruction at `ip` would run with the host ready. -/

namespace Sys2Proof.Machine

/-! ## WRITE (R120, R121) -/

theorem exec_write_of_cell (z : Operand) {s : State} {v : Byte} (hv : memRead Config.hw (cellAddr s) s = some v) :
    exec (.write z) s = .next (offerByte v s) := by
  obtain ⟨hd, rfl⟩ := memRead_eq_some.1 hv
  exact exec_write_next.2 ⟨hd, rfl⟩

/-- Settles O16: the cell is offered, and the host accepts it or the core is held. -/
theorem writeEmitsTheCell : Obligations.WriteEmitsTheCell := by
  refine ⟨fun z => decodeOfEncode (.write z), fun z s v hv => ?_⟩
  rw [exec_write_of_cell z hv]
  exact ⟨fun k hk => congrArg _ (offerByte_accepted hk), fun h0 => congrArg _ (offerByte_held h0)⟩

/-! ## READ with an event (R122, R123, R124) -/

/-- A store reads back, leaves the other cells, and otherwise only advances. -/
theorem storeCell_reads_back {c : Config} {s : State} (b : Byte) (hd : s.dp.toNat < c.tapeLen) :
    ∃ t, storeCell c b s = .next t ∧ memRead c (cellAddr s) t = some b ∧
      (∀ a, a ≠ cellAddr s → memRead c a t = memRead c a s) ∧ t = { s with tape := t.tape, ip := s.ip + 1 } :=
  ⟨updateCell (fun _ => b) s, storeCell_of_lt hd, memRead_updateCell_same _ (memRead_eq_some.2 ⟨hd, rfl⟩),
    fun _ => memRead_updateCell_other _, updateCell_frame _ s⟩

theorem finishRead_end_fault {c : Config} (h : c.eofPolicy = .fault) (s : State) :
    finishRead c .endOfInput s = .next (raise .inputRead 1 (takeEvent s)) := by
  simp only [finishRead, h]

theorem finishRead_end_unchanged {c : Config} (h : c.eofPolicy = .unchanged) (s : State) :
    finishRead c .endOfInput s = .next (advance (takeEvent s)) := by
  simp only [finishRead, h]

theorem finishRead_end_stores {c : Config} {b : Byte}
    (h : c.eofPolicy = .zero ∧ b = 0 ∨ c.eofPolicy = .allOnes ∧ b = 0xFF) (s : State) :
    finishRead c .endOfInput s = storeCell c b (takeEvent s) := by
  rcases h with ⟨hp, rfl⟩ | ⟨hp, rfl⟩
  · simp only [finishRead, hp]
  · simp only [finishRead, hp]

/-- Settles O18: two policies raise or pass, and two store their byte. -/
theorem endOfInputPolicies : Obligations.EndOfInputPolicies := by
  refine ⟨Config.hw_eofPolicy, fun c s hd => ⟨fun hp => finishRead_end_fault hp s,
    fun hp => finishRead_end_unchanged hp s, fun b hp => ?_⟩⟩
  rw [finishRead_end_stores hp]
  exact storeCell_reads_back (s := takeEvent s) b hd

/-- Settles O17: without an event the core is held; with one, the three events are the three ends of a READ. -/
theorem readTakesOneEvent : Obligations.ReadTakesOneEvent := by
  refine ⟨fun z => decodeOfEncode (.read z), fun z s h => exec_read_none h, fun z s e rest hd he => ?_⟩
  rw [exec_read_event he]
  refine ⟨?_, ?_, ?_⟩
  · rintro b rfl
    exact storeCell_reads_back (s := takeEvent { s with hostInput := rest }) b hd
  · rintro rfl
    rfl
  · rintro rfl
    exact finishRead_end_fault Config.hw_eofPolicy _

/-! ## The completion of a held instruction (R120, R122) -/

theorem dispatch_eq_exec {s : State} {i : Instr} (hi : fetchInstr Config.hw s = some i) : dispatch s = exec i s := by
  unfold fetchInstr at hi
  split at hi
  · rename_i hf
    obtain ⟨w, hw, rfl⟩ := Option.map_eq_some_iff.1 hi
    simp only [dispatch, hf, hw, if_true]
  · cases hi

theorem finishRead_takes {c : Config} {e : InputEvent} {s t : State} (h : finishRead c e s = .next t) :
    t.wait = .none ∧ t.hostTaken = s.hostTaken + 1 := by
  rcases finishRead_cases h with ⟨_, b, rfl⟩ | ⟨_, rfl⟩ | ⟨_, _, rfl⟩ | ⟨_, _, rfl⟩ <;> exact ⟨rfl, rfl⟩

/-- The end of a READ does not depend on the hold it ends: `takeEvent` clears `WAIT` first. -/
theorem finishRead_with_wait (c : Config) (e : InputEvent) (w : Wait) (s : State) :
    finishRead c e { s with wait := w } = finishRead c e s := rfl

theorem hostAct_answer {s : State} (hw : s.wait = .input) (c : Config) (e : InputEvent) :
    hostAct c (.answer e) s = finishRead c e s :=
  if_pos hw

theorem hostAct_accept {s : State} (hw : s.wait = .output) (c : Config) : hostAct c .accept s = finishWrite c s :=
  if_pos hw

theorem hostReply_accept {s : State} (hw : s.wait = .output) (c : Config) :
    hostReply c .accept s = replyByte (memRead c (cellAddr s) s) :=
  if_pos hw

/-- Dispatched with the answer as its only ready event, a held READ ends as the answer ends it. -/
theorem Inv.dispatch_answered {s : State} (h : Inv s) (hw : s.wait = .input) (e : InputEvent) :
    dispatch { s with wait := .none, hostInput := [e] } = finishRead Config.hw e s := by
  obtain ⟨hempty, z, hf⟩ := h.wait_input hw
  have hs : { s with hostInput := [] } = s := by rw [← hempty]
  calc dispatch { s with wait := .none, hostInput := [e] }
      = exec (.read z) { s with wait := .none, hostInput := [e] } := dispatch_eq_exec hf
    _ = finishRead Config.hw e { s with wait := .none, hostInput := [] } := exec_read_event rfl
    _ = finishRead Config.hw e { s with hostInput := [] } := finishRead_with_wait _ e .none { s with hostInput := [] }
    _ = finishRead Config.hw e s := by rw [hs]

/-- Dispatched with one byte that the host will take, a held WRITE ends as the acceptance ends it. -/
theorem Inv.dispatch_accepted {s : State} (h : Inv s) (hw : s.wait = .output) {v : Byte}
    (hv : memRead Config.hw (cellAddr s) s = some v) :
    dispatch { s with wait := .none, hostAccepts := 1 } = .next (acceptByte v s) := by
  obtain ⟨hnone, z, hf⟩ := h.wait_output hw
  have hs : { s with hostAccepts := 0 } = s := by rw [← hnone]
  calc dispatch { s with wait := .none, hostAccepts := 1 }
      = exec (.write z) { s with wait := .none, hostAccepts := 1 } := dispatch_eq_exec hf
    _ = .next (acceptByte v { s with hostAccepts := 0 }) := exec_write_of_cell z hv
    _ = .next (acceptByte v s) := by rw [hs]

/-- Settles O19: both are the end of the READ with the event, which the data pointer in the tape lets complete. -/
theorem answerCompletesTheRead : Obligations.AnswerCompletesTheRead := by
  intro e s h hw
  obtain ⟨t, ht⟩ := finishRead_isNext (c := Config.hw) e h.dp_in_tape
  obtain ⟨hwait, htaken⟩ := finishRead_takes ht
  exact ⟨t, (hostAct_answer hw _ e).trans ht, hwait, htaken, (h.dispatch_answered hw e).trans ht⟩

/-- Settles O20: both are the acceptance of the cell, which the data pointer in the tape lets be read. -/
theorem acceptCompletesTheWrite : Obligations.AcceptCompletesTheWrite := by
  intro s h hw
  have hv : memRead Config.hw (cellAddr s) s = some (s.tape.get (cellAddr s)) := memRead_eq_some.2 ⟨h.dp_in_tape, rfl⟩
  refine ⟨_, _, hv, ?_, ?_, rfl, h.dispatch_accepted hw hv⟩
  · rw [hostAct_accept hw]
    exact finishWrite_eq_next.2 ⟨h.dp_in_tape, rfl⟩
  · rw [hostReply_accept hw, hv]
    rfl

end Sys2Proof.Machine
end

section
/-! Proofs of the control transfer statements (spec/43_control.md): JUMP_IF_ZERO and JUMP, and the two jumps of a loop
in a well-formed image. -/

namespace Sys2Proof.Machine

/-! ## The two jumps (R130, R131) -/

theorem exec_jump (u : Operand) (s : State) : exec (.jump u) s = .next (jumpTo u s) := rfl

theorem exec_jumpIfZero_of_zero {u : Operand} {s : State} (hd : s.dp.toNat < Config.hw.tapeLen)
    (h0 : s.tape.get (cellAddr s) = 0) : exec (.jumpIfZero u) s = .next (jumpTo u s) :=
  exec_jumpIfZero_next.2 ⟨hd, (if_pos h0).symm⟩

theorem exec_jumpIfZero_of_ne_zero {u : Operand} {s : State} (hd : s.dp.toNat < Config.hw.tapeLen)
    (h0 : s.tape.get (cellAddr s) ≠ 0) : exec (.jumpIfZero u) s = .next (advance s) :=
  exec_jumpIfZero_next.2 ⟨hd, (if_neg h0).symm⟩

/-- A target past the program is found out by the next fetch. -/
theorem step_jumpTo_past {u : Operand} {s : State} (hr : CoreReady s) (hu : s.progLen.toNat ≤ u.toNat) :
    step (jumpTo u s) = .next (raise .fetchRange 0 (jumpTo u s)) :=
  step_fetchRange (s := jumpTo u s) hr hu

/-- Settles O23: a taken jump, whose target the next fetch checks. -/
theorem jumpSetsTheInstructionPointer : Obligations.JumpSetsTheInstructionPointer :=
  ⟨fun u => decodeOfEncode (.jump u), fun u s =>
    ⟨exec_jump u s, fun hr hu => ⟨_, exec_jump u s, step_jumpTo_past hr hu⟩⟩⟩

/-- Settles O22: the cell decides between a taken jump and the next instruction. -/
theorem jumpIfZeroTestsTheCell : Obligations.JumpIfZeroTestsTheCell := by
  refine ⟨fun u => decodeOfEncode (.jumpIfZero u), fun u s v hv => ?_⟩
  obtain ⟨hd, rfl⟩ := memRead_eq_some.1 hv
  exact ⟨exec_jumpIfZero_of_zero hd, exec_jumpIfZero_of_ne_zero hd,
    fun h0 hr hu => ⟨_, exec_jumpIfZero_of_zero hd h0, step_jumpTo_past hr hu⟩⟩

/-! ## The two jumps of a loop (R72 f, R133) -/

/-- The matching of a list of words, cut at one of them. -/
theorem matchJumps_split {xs : List Instr} {q : Nat} {i : Instr} {idx : Nat} {stack left : List (Nat × Operand)}
    (h : matchJumps xs idx stack = some left) (hq : xs[q]? = some i) :
    ∃ opened, matchJumps (xs.take q) idx stack = some opened ∧
      matchJumps (i :: xs.drop (q + 1)) (idx + q) opened = some left := by
  obtain ⟨hlt, rfl⟩ := List.getElem?_eq_some_iff.1 hq
  rw [← List.take_append_drop q xs, matchJumps_append, List.length_take_of_le hlt.le,
    List.drop_eq_getElem_cons hlt] at h
  exact Option.bind_eq_some_iff.1 h

/-- The JUMP before the operand of an open bracket has that bracket as its target: the operand says which JUMP closes
the bracket, so no earlier one has and no later one does. -/
theorem matchJumps_partner {xs : List Instr} {idx : Nat} {stack : List (Nat × Operand)} {p : Nat × Operand}
    (h : matchJumps xs idx stack = some []) (hp : p ∈ stack) :
    ∃ q t, xs[q]? = some (.jump t) ∧ p.2.toNat = idx + q + 1 ∧ t.toNat = p.1 := by
  obtain hnil | ⟨q, t, hq, hu⟩ := matchJumps_closes h hp
  · cases hnil
  obtain ⟨opened, hbefore, hfrom⟩ := matchJumps_split h hq
  have hopen : p ∈ opened := (matchJumps_closes hbefore hp).resolve_right fun ⟨r, _, hr, hru⟩ => by
    have := (List.getElem?_eq_some_iff.1 hr).1
    rw [List.length_take] at this
    omega
  obtain ⟨u, inner, rfl, _, hafter⟩ := matchJumps_jump.1 hfrom
  rcases List.mem_cons.1 hopen with rfl | hinner
  · exact ⟨q, t, hq, hu, rfl⟩
  · obtain hnil | ⟨r, _, _, hru⟩ := matchJumps_closes hafter hinner
    · cases hnil
    · omega

theorem eq_ofNat_of_toNat_eq {u : Operand} {n : Nat} (h : u.toNat = n) : u = BitVec.ofNat 28 n := by
  rw [← h, BitVec.ofNat_toNat, BitVec.setWidth_eq]

/-- Each of the two jumps of a loop has the operand that R72 (f) gives it. -/
theorem loop_pair {prog : List Instr} (hm : matchJumps prog 0 [] = some []) {a : Nat} {u : Operand}
    (ha : prog[a]? = some (.jumpIfZero u)) :
    ∃ b, a < b ∧ prog[b]? = some (.jump (BitVec.ofNat 28 a)) ∧ u = BitVec.ofNat 28 (b + 1) := by
  obtain ⟨stack, _, h⟩ := matchJumps_cut hm ha
  rw [matchJumps] at h
  obtain ⟨q, t, hq, hu, ht⟩ := matchJumps_partner h (List.mem_cons_self ..)
  obtain rfl := eq_ofNat_of_toNat_eq ht
  exact ⟨a + 1 + q, by omega, by rwa [List.getElem?_drop] at hq, eq_ofNat_of_toNat_eq hu⟩

/-- A ready core runs the image's word at its instruction pointer. -/
theorem HoldsImage.step_eq_exec {prog : List Instr} {s : State} {i : Instr} (him : HoldsImage prog s)
    (hr : CoreReady s) (hp : prog[s.ip.toNat]? = some i) : step s = exec i s :=
  Machine.step_eq_exec hr ((him.fetchInstr_eq (List.getElem?_eq_some_iff.1 hp).1).trans hp)

/-- Settles O25: the pair's operands are the indices that R133 names, and stepping runs the two words of the image. -/
theorem loopPairsReturnToTheirTest : Obligations.LoopPairsReturnToTheirTest := by
  intro prog a u hwf _ ha
  obtain ⟨_, _, hm⟩ := wellFormedImage_parts hwf
  obtain ⟨b, hab, hb, rfl⟩ := loop_pair hm ha
  refine ⟨b, hab, hb, fun s him hr hd => ⟨fun hip h0 => ?_, fun hip h0 => ?_, fun hip => ?_⟩⟩
  · rw [him.step_eq_exec hr (hip ▸ ha)]
    exact exec_jumpIfZero_of_zero hd h0
  · have hnext : s.ip + 1 = BitVec.ofNat 28 (a + 1) := by
      rw [eq_ofNat_of_toNat_eq hip, BitVec.ofNat_add]
      rfl
    rw [him.step_eq_exec hr (hip ▸ ha), ← hnext]
    exact exec_jumpIfZero_of_ne_zero hd h0
  · rw [him.step_eq_exec hr (hip ▸ hb)]
    exact exec_jump _ s

end Sys2Proof.Machine
end

section
/-! Proofs of the halt statements (spec/44_halt.md): END and the core that it stops. -/

namespace Sys2Proof.Machine

theorem exec_endRun (z : Operand) (s : State) : exec (.endRun z) s = .next (haltCore s) := rfl

/-- Only a RUNNING core steps (R27). -/
theorem coreStep_of_not_running {s : State} (h : s.runState ≠ .running) : coreStep s = .next s :=
  coreStep_of_not_mayStep (Bool.eq_false_iff.2 (mt coreMayStep_running h))

theorem exitStatus_of_halted {s : State} (h : s.runState = .halted) : exitStatus s = some 0 := by
  simp [exitStatus, h]

/-- Settles O24: END is the halt operation, whose run state is neither RUNNING nor a fault. -/
theorem endHalts : Obligations.EndHalts := by
  refine ⟨fun z => decodeOfEncode (.endRun z), fun z s => ⟨haltCore s, exec_endRun z s, rfl, ?_, ?_⟩⟩
  · exact coreStep_of_not_running (by simp)
  · exact exitStatus_of_halted (haltCore_runState s)

end Sys2Proof.Machine
end

section
/-! Proofs of the exception statements (spec/60_exceptions.md): fault entry, what raises the four faults, and that they
are precise. -/

namespace Sys2Proof.Machine

/-! ## Fault entry (R164, R165) -/

/-- Settles O27: the range check comes before the fetch, so no word is looked at. -/
theorem fetchPastTheProgramFaults : Obligations.FetchPastTheProgramFaults := fun _ hready hlen =>
  step_fetchRange hready hlen

/-- Settles O28: fault entry is `raise`; FAULTED is not RUNNING, so the core stands, and STATUS shows the record. -/
theorem faultEntryStopsTheCore : Obligations.FaultEntryStopsTheCore := fun cause info s =>
  ⟨raise cause info s, rfl, rfl, coreStep_of_not_running (by simp), statusWord_runState _, statusWord_faultCause _,
    statusWord_faultInfo _⟩

/-! ## What raises a fault (R160 to R164) -/

section
variable {s t : State} (hs : s.runState ≠ .faulted) (ht : t.runState = .faulted)
include hs ht

/-- From a data pointer inside the tape the instruction at `ip` raises no fault but those of R160. -/
theorem exec_coreFault {i : Instr} (hd : s.dp.toNat < Config.hw.tapeLen) (hf : fetchInstr Config.hw s = some i)
    (h : exec i s = .next t) : t.faultIp = s.ip ∧ CoreFault s t := by
  cases exec_effect h with
  | above hi =>
    rcases hi with ⟨n, rfl, hn⟩ | ⟨n, rfl, hn⟩
    · exact ⟨rfl, .inl ⟨rfl, n, hf, rfl, hn⟩⟩
    · omega
  | below n hi hn => exact ⟨rfl, .inr (.inl ⟨rfl, n, hi ▸ hf, rfl, hn⟩)⟩
  | readError z hi rest he => exact ⟨rfl, .inr (.inr (.inl ⟨rfl, z, rest, hi ▸ hf, .inl ⟨rfl, he⟩⟩))⟩
  | readEnd z hi rest he => exact ⟨rfl, .inr (.inr (.inl ⟨rfl, z, rest, hi ▸ hf, .inr ⟨rfl, he⟩⟩))⟩
  | illegal _ ho => exact ⟨rfl, .inr (.inr (.inr (.inl ⟨rfl, i, hf, rfl, ho⟩)))⟩
  | halted z _ => cases ht
  | _ => exact absurd ht hs

theorem coreStep_coreFault (hd : s.dp.toNat < Config.hw.tapeLen) (h : coreStep s = .next t) :
    t.faultIp = s.ip ∧ CoreFault s t := by
  rcases coreStep_cases h with ⟨_, rfl⟩ | ⟨_, hlen, rfl⟩ | ⟨_, _, i, hf, he⟩
  · exact absurd ht hs
  · exact ⟨rfl, .inr (.inr (.inr (.inr ⟨rfl, rfl, hlen⟩)))⟩
  · exact exec_coreFault hs ht hd hf he

/-- Only a core that may step raises a fault of its own. -/
theorem coreMayStep_of_fault (h : coreStep s = .next t) : coreMayStep s = true := by
  by_contra hm
  obtain rfl := next_eq_next.1 ((coreStep_of_not_mayStep (Bool.eq_false_iff.2 hm)).symm.trans h)
  exact hs ht

/-- The one interaction that raises a fault is an answer to a held READ, with no byte in it. -/
theorem hostAct_fault {a : HostAction} (h : hostAct Config.hw a s = .next t) :
    ∃ e info, a = .answer e ∧ s.wait = .input ∧ (info = 0 ∧ e = .error ∨ info = 1 ∧ e = .endOfInput) ∧
      t = raise .inputRead info (takeEvent s) := by
  cases hostAct_effect h with
  | answeredError ha hw => exact ⟨_, _, ha, hw, .inl ⟨rfl, rfl⟩, rfl⟩
  | answeredEnd ha hw => exact ⟨_, _, ha, hw, .inr ⟨rfl, rfl⟩, rfl⟩
  | poweredOn _ => cases ht
  | reset v _ _ => cases ht
  | started v _ _ _ _ => cases ht
  | _ => exact absurd ht hs

end

/-- Settles O29: the core's move faults as `CoreFault` says, the host's turn by an answer to the READ that the
invariant finds at `ip`. -/
theorem faultsAreExactlyTheFour : Obligations.FaultsAreExactlyTheFour := by
  refine ⟨rfl, fun s t hready hd h ht => ?ready, fun s t hinv hs h ht => ?every⟩
  case ready =>
    obtain ⟨hturns, hrun, _⟩ := hready
    exact coreStep_coreFault (by simp [hrun]) ht hd ((step_of_no_turns hturns).symm.trans h)
  case every =>
    rcases step_cases h with ⟨r, hc, hturns⟩ | ⟨a, r, hturns, ha⟩
    · have hm := coreMayStep_of_fault (s := { s with turns := r }) hs ht hc
      obtain ⟨hip, hfault⟩ := coreStep_coreFault (s := { s with turns := r }) hs ht hinv.dp_in_tape hc
      exact ⟨hip, coreMayStep_running hm,
        .inl ⟨hinv.wait_of_mayStep hm, hturns.imp And.left fun hcore => ⟨r, hcore⟩, hfault⟩⟩
    · obtain ⟨e, info, rfl, hw, hinfo, rfl⟩ := hostAct_fault (s := { s with turns := r }) hs ht ha
      exact ⟨rfl, hinv.running_of_input hw, .inr ⟨hw, e, r, hturns, rfl, (hinv.wait_input hw).2, hinfo⟩⟩

/-! ## Faults are precise (R166) -/

/-- The state in which the core's move raises a fault: the state it moves from, or for InputReadError that state with
its first event taken. -/
inductive CoreRaises (s : State) : State → Prop where
  | unchanged (cause : FaultCause) (info : BitVec 4) (hc : cause ≠ .inputRead) : CoreRaises s (raise cause info s)
  | taken (e : InputEvent) (rest : List InputEvent) (info : BitVec 4) (he : s.hostInput = e :: rest) :
      CoreRaises s (raise .inputRead info (takeEvent { s with hostInput := rest }))

section
variable {s t : State} (hs : s.runState ≠ .faulted) (ht : t.runState = .faulted)
include hs ht

theorem exec_raises {i : Instr} (h : exec i s = .next t) : CoreRaises s t := by
  cases exec_effect h with
  | above _ => exact .unchanged _ _ (by decide)
  | below n _ _ => exact .unchanged _ _ (by decide)
  | illegal _ _ => exact .unchanged _ _ (by decide)
  | readError z _ rest he => exact .taken _ rest 0 he
  | readEnd z _ rest he => exact .taken _ rest 1 he
  | halted z _ => cases ht
  | _ => exact absurd ht hs

theorem coreStep_raises (h : coreStep s = .next t) : CoreRaises s t := by
  rcases coreStep_cases h with ⟨_, rfl⟩ | ⟨_, _, rfl⟩ | ⟨_, _, i, _, he⟩
  · exact absurd ht hs
  · exact .unchanged _ _ (by decide)
  · exact exec_raises hs ht he

end

/-- What a fault leaves of the state before the instruction: everything but the record and the input side. -/
abbrev KeptByFault (s t : State) : Prop :=
  t = { s with
    runState := .faulted, wait := .none, faultCause := t.faultCause, faultInfo := t.faultInfo, faultIp := s.ip,
    hostInput := t.hostInput, hostTaken := t.hostTaken }

section
variable {s t : State} (h : CoreRaises s t)
include h

theorem CoreRaises.kept (hw : s.wait = .none) : KeptByFault s t := by
  cases h with
  | unchanged cause info _ => rw [KeptByFault, ← hw]; rfl
  | taken e rest info _ => rfl

theorem CoreRaises.input_kept (hc : t.faultCause ≠ .inputRead) : InputKept s t := by
  cases h with
  | unchanged cause info _ => exact ⟨rfl, rfl⟩
  | taken e rest info _ => exact absurd rfl hc

theorem CoreRaises.input_taken (hc : t.faultCause = .inputRead) :
    t.hostTaken = s.hostTaken + 1 ∧ ∃ e, s.hostInput = e :: t.hostInput := by
  cases h with
  | unchanged cause info hne => exact absurd hc hne
  | taken e rest info he => exact ⟨rfl, e, he⟩

end

/-- Settles O30: the core raises a fault in the state it moves from, or with one event taken; an answer raises it with
that answer counted and nothing of what the host has ready taken. -/
theorem faultsArePrecise : Obligations.FaultsArePrecise := by
  refine ⟨fun s t hready h ht => ?ready, fun s t hinv hs h ht => ?every⟩
  case ready =>
    obtain ⟨hturns, hrun, hw⟩ := hready
    have hraise := coreStep_raises (by simp [hrun]) ht ((step_of_no_turns hturns).symm.trans h)
    exact ⟨(hraise.kept hw).trans (by rw [← hw]), hraise.input_kept⟩
  case every =>
    rcases step_cases h with ⟨r, hc, hturns⟩ | ⟨a, r, hturns, ha⟩
    · have hw : s.wait = .none := hinv.wait_of_mayStep (coreMayStep_of_fault (s := { s with turns := r }) hs ht hc)
      have hraise := coreStep_raises (s := { s with turns := r }) hs ht hc
      have htail : s.turns.tail = r := by
        rcases hturns with ⟨e, rfl⟩ | e <;> simp [e]
      rw [htail]
      exact ⟨hraise.kept hw, hraise.input_kept, fun hc => (hraise.input_taken hc).1,
        fun _ hc => (hraise.input_taken hc).2, fun hne => absurd hw hne⟩
    · obtain ⟨e, info, rfl, hw, _, rfl⟩ := hostAct_fault (s := { s with turns := r }) hs ht ha
      rw [hturns]
      exact ⟨rfl, fun hne => absurd rfl hne, fun _ => rfl, fun hnone => absurd (hnone.symm.trans hw) (by simp),
        fun _ => rfl⟩

end Sys2Proof.Machine
end

section
/-! Proofs of the exception statements (spec/60_exceptions.md): the stopped core, the host's interactions outside their
column, and the observation of a run. -/

namespace Sys2Proof.Machine

/-! ## The stopped core (R168, R176) -/

theorem not_idle_not_running_of_stopped {s : State} (h : s.runState = .halted ∨ s.runState = .faulted) :
    s.runState ≠ .idle ∧ s.runState ≠ .running := by
  rcases h with e | e <;> simp [e]

/-- Stopped, the core is neither IDLE nor held, so every interaction but a reset and a power-on is ignored. -/
theorem Inv.hostEffect_of_stopped {a : HostAction} {s t : State} (h : Inv s)
    (hstop : s.runState = .halted ∨ s.runState = .faulted) (hpower : a ≠ .powerOn)
    (hreset : ∀ v, a = .writeReg 1 v → v.getLsbD 1 = false) (he : HostEffect a s t) : t = s := by
  obtain ⟨hidle, hrun⟩ := not_idle_not_running_of_stopped hstop
  have hw : s.wait = .none := h.wait_of_not_running hrun
  cases he with
  | unchanged => rfl
  | poweredOn ha => exact absurd ha hpower
  | reset v ha h1 => rw [hreset v ha] at h1; cases h1
  | started v _ _ _ hr => exact absurd hr hidle
  | lengthSet v _ hr => exact absurd hr hidle
  | loaded i w _ hr _ => exact absurd hr hidle
  | answered b _ hin _ => simp [hw] at hin
  | answeredError _ hin => simp [hw] at hin
  | answeredEnd _ hin => simp [hw] at hin
  | accepted _ hout _ => simp [hw] at hout

/-- Settles O43: the core's own move is none, and an interaction has a next state, which is the same one. -/
theorem stoppedCoreWaitsForReset : Obligations.StoppedCoreWaitsForReset := by
  intro s h hstop
  refine ⟨coreStep_of_not_running (not_idle_not_running_of_stopped hstop).2, fun a hpower hreset => ?_⟩
  obtain ⟨t, ht⟩ := hostAct_isNext a h.dp_in_tape
  rw [ht, h.hostEffect_of_stopped hstop hpower hreset (hostAct_effect ht)]

/-! ## Interactions outside their column (R177) -/

theorem hostAct_answer_ignored {s : State} (hw : s.wait ≠ .input) (c : Config) (e : InputEvent) :
    hostAct c (.answer e) s = .next s :=
  if_neg hw

theorem hostAct_accept_ignored {s : State} (hw : s.wait ≠ .output) (c : Config) : hostAct c .accept s = .next s :=
  if_neg hw

theorem hostAct_load_of_not_idle {s : State} (hr : s.runState ≠ .idle) (c : Config) (i : Nat) (w : Word) :
    hostAct c (.load i w) s = .next s :=
  next_eq_next.2 (loadWord_ignored w (.inl hr)).symm

/-- Outside IDLE a write of CONTROL that does not reset does nothing: a START is ignored (R191). -/
theorem writeControl_of_not_idle {v : Word} {s : State} (h1 : v.getLsbD 1 = false) (hr : s.runState ≠ .idle) :
    writeControl v s = s := by
  rcases h0 : v.getLsbD 0 with _ | _
  · exact writeControl_neither h1 h0 s
  · exact (writeControl_start h1 h0 s).trans (startRun_of_not_idle hr)

/-- Settles O52: one equation per row of R177; of the replies, an acceptance gives a byte only of a held WRITE. -/
theorem interactionsOutsideTheirColumnAreIgnored : Obligations.InteractionsOutsideTheirColumnAreIgnored := by
  intro s a hout
  refine ⟨?ignored, ?register, ?acceptance⟩
  case ignored =>
    rcases hout with ⟨addr, rfl | rfl⟩ | ⟨e, rfl, hw⟩ | ⟨rfl, hw⟩ | ⟨hr, i, w, rfl⟩ | ⟨hr, v, rfl⟩ | ⟨hr, v, rfl, h1⟩
    · rfl
    · rfl
    · exact hostAct_answer_ignored hw _ e
    · exact hostAct_accept_ignored hw _
    · exact hostAct_load_of_not_idle hr _ i w
    · exact hostAct_writeProgLen_of_not_idle v hr
    · exact next_eq_next.2 (writeControl_of_not_idle h1 hr).symm
  case register => rintro addr rfl; rfl
  case acceptance =>
    rintro rfl
    have hw : s.wait ≠ .output := by simpa using hout
    exact if_neg hw

/-! ## The end of a run and its observation (R179, R180) -/

theorem runEnded_iff {s : State} : runEnded s = true ↔ s.runState = .halted ∨ s.runState = .faulted := by
  simp [runEnded]

theorem observe_isSome_iff {s : State} :
    (observe s).isSome = true ↔ s.runState = .halted ∨ s.runState = .faulted := by
  rw [← runEnded_iff, observe, Option.isSome_ite]

theorem exitStatus_zero_iff {s : State} : exitStatus s = some 0 ↔ s.runState = .halted := by
  cases h : s.runState <;> simp [exitStatus, h]

theorem exitStatus_one_iff {s : State} : exitStatus s = some 1 ↔ s.runState = .faulted := by
  cases h : s.runState <;> simp [exitStatus, h]

/-- A START marks all that the host has accepted and used up, so the run begins with nothing observed. -/
theorem hostAct_start {v : Word} {s : State} (h0 : v.getLsbD 0 = true) (h1 : v.getLsbD 1 = false)
    (hr : s.runState = .idle) (c : Config) :
    hostAct c (.writeReg 1 v) s = .next { markStart s with runState := .running } :=
  next_eq_next.2 ((writeControl_start h1 h0 s).trans (startRun_idle hr)).symm

/-- The bytes a move hands over: none, or the cell at the data pointer. -/
theorem OutputGrows.appended {s t : State} (h : OutputGrows s t) : ∃ new, t.hostOutput = s.hostOutput ++ new ∧
    (new = [] ∨ ∃ v, memRead Config.hw (cellAddr s) s = some v ∧ new = [v]) := by
  rcases h with e | ⟨v, hv, e⟩
  · exact ⟨[], by simpa using e, .inl rfl⟩
  · exact ⟨[v], e, .inr ⟨v, hv, rfl⟩⟩

/-- With the mark of START kept, the run's output grows by what the host's output grows by. -/
theorem runOutput_append {s t : State} {new : List Byte} (hmark : t.outputAtStart = s.outputAtStart)
    (hle : s.outputAtStart ≤ s.hostOutput.length) (hout : t.hostOutput = s.hostOutput ++ new) :
    runOutput t = runOutput s ++ new := by
  rw [runOutput, runOutput, hmark, hout, List.drop_append_of_le_length hle]

/-- A step from RUNNING is no START, so it leaves the marks. -/
theorem step_marks_of_running {s t : State} (hr : s.runState = .running) (h : step s = .next t) :
    t.outputAtStart = s.outputAtStart ∧ t.takenAtStart = s.takenAtStart := by
  rcases step_marks h with hkept | ⟨hidle, _⟩
  · exact hkept
  · rw [hr] at hidle; cases hidle

/-- Settles O54: the observation is read off its definition; START sets the marks, and the steps of the run leave them
while the host's output and count grow. -/
theorem endOfARunIsObserved : Obligations.EndOfARunIsObserved := by
  refine ⟨fun s => ⟨observe_isSome_iff, fun o ho => ?observation, exitStatus_zero_iff, exitStatus_one_iff⟩,
    fun v s h0 h1 hr => ⟨_, hostAct_start h0 h1 hr _, rfl, List.drop_length, Nat.sub_self _⟩,
    fun s t hinv hr h => ?growth⟩
  case observation =>
    obtain ⟨_, e⟩ := Option.ite_none_right_eq_some.1 ho
    obtain rfl := Option.some.inj e
    exact ⟨rfl, rfl, rfl, rfl, rfl, rfl, rfl, rfl, rfl⟩
  case growth =>
    obtain ⟨hout, htaken⟩ := step_marks_of_running hr h
    obtain ⟨hle, htle⟩ := hinv.run_counts
    have htle' := (everyStepKeepsInv s t hinv h).run_counts.2
    obtain ⟨new, hnew, hcell⟩ := OutputGrows.appended (outputOnlyGrows s t h)
    have hrun := runOutput_append hout hle hnew
    refine ⟨?_, ?_, ?_⟩
    · rcases hcell with rfl | ⟨v, hv, rfl⟩
      · exact .inl (by simpa using hrun)
      · exact .inr ⟨v, hv, hrun⟩
    · rw [hrun, List.drop_left, hnew]
    · rw [runTaken, runTaken, htaken]
      omega

end Sys2Proof.Machine
end

section
/-! Proofs of the reset statements (spec/70_reset_and_hazards.md): the writes of CONTROL, and the boot sequence. -/

namespace Sys2Proof.Machine

/-! ## Reset and start (R190, R191) -/

/-- Settles O44: bit 1 of CONTROL is tested first, and `resetBlock` sets every field but the ones listed. -/
theorem resetSetsTheResetValues : Obligations.ResetSetsTheResetValues := fun _ s h1 =>
  next_eq_next.2 (writeControl_reset h1 s).symm

/-- Settles O46: START is `startRun`, and the invariant holds IDLE to the pointers and the tape of a reset. -/
theorem startWorksFromIdleOnly : Obligations.StartWorksFromIdleOnly := by
  refine fun v s h1 => ⟨rfl, fun h0 hr => hostAct_start h0 h1 hr _, fun hinv hr => ?pointers, fun h => ?ignored⟩
  case pointers =>
    obtain ⟨hip, hdp, htape⟩ := hinv.idle_reset hr
    exact ⟨hip, hdp, fun a => by rw [htape]; rfl⟩
  case ignored =>
    rcases h with h0 | hr
    · exact next_eq_next.2 (writeControl_neither h1 h0 s).symm
    · exact next_eq_next.2 (writeControl_of_not_idle h1 hr).symm

/-! ## The boot sequence (R192) -/

/-- Program memory `m` after the words `ws` are loaded from index `i` on, word by word as `loadTurns` does. -/
def loadedFrom : Nat → List Word → IMem → IMem
  | _, [], m => m
  | i, w :: rest, m => loadedFrom (i + 1) rest (setKey i w m)

theorem lookupKey_loadedFrom_below {j : Nat} (ws : List Word) {i : Nat} (h : j < i) (m : IMem) :
    lookupKey j (loadedFrom i ws m) = lookupKey j m := by
  induction ws generalizing i m with
  | nil => rfl
  | cons w rest ih => exact (ih (by omega) _).trans (lookupKey_setKey_other (by omega) w m)

theorem lookupKey_loadedFrom (ws : List Word) {j : Nat} (h : j < ws.length) (i : Nat) (m : IMem) :
    lookupKey (i + j) (loadedFrom i ws m) = some ws[j] := by
  induction ws generalizing i j m with
  | nil => cases h
  | cons w rest ih =>
    cases j with
    | zero => exact (lookupKey_loadedFrom_below rest (Nat.lt_succ_self i) _).trans (lookupKey_setKey_same i w m)
    | succ k => rw [← Nat.succ_add_eq_add_succ]; exact ih (Nat.lt_of_succ_lt_succ h) (i + 1) _

theorem hostAct_load_accepted {i : Nat} {s : State} (hr : s.runState = .idle) {c : Config} (hi : i < c.progDepth)
    (w : Word) : hostAct c (.load i w) s = .next { s with imem := setKey i w s.imem } :=
  next_eq_next.2 (loadWord_accepted w hr hi).symm

/-- A run whose first turn is the host's begins with that one interaction. -/
theorem core_run_host {a : HostAction} {r : List Turn} {s t : State} (hturns : s.turns = .host a :: r)
    (h : hostAct Config.hw a { s with turns := r } = .next t) (k : Nat) :
    Sys2Proof.core.run (k + 1) s = Sys2Proof.core.run k t :=
  core_run_next (by rw [step, hturns]; exact h)

/-- The load turns of a boot, in IDLE and within the capacity, load every word and change nothing else (R41). -/
theorem core_run_loadTurns {ws : List Word} {i : Nat} {r : List Turn} {s : State}
    (hturns : s.turns = loadTurns i ws ++ r) (hr : s.runState = .idle) (hi : i + ws.length ≤ Config.hw.progDepth)
    (k : Nat) : Sys2Proof.core.run (ws.length + k) s =
      Sys2Proof.core.run k { s with imem := loadedFrom i ws s.imem, turns := r } := by
  induction ws generalizing i s with
  | nil =>
    obtain rfl : s.turns = r := hturns
    rw [List.length_nil, Nat.zero_add]
    rfl
  | cons w rest ih =>
    rw [List.length_cons] at hi ⊢
    have hdepth : i < Config.hw.progDepth := by omega
    have hload := hostAct_load_accepted (s := { s with turns := loadTurns (i + 1) rest ++ r }) hr hdepth w
    rw [Nat.add_right_comm]
    exact (core_run_host hturns hload _).trans (ih rfl hr (by omega))

/-- The state a boot from reset leaves: the words loaded, their number in PROG_LEN, RUNNING with no turn left. -/
def State.booted (ws : List Word) : State :=
  { State.reset with
      imem := loadedFrom 0 ws [], progLen := clampedLen (BitVec.ofNat 32 ws.length), runState := .running }

/-- The loads are followed by the write of PROG_LEN and START, each accepted in IDLE (R34, R191). -/
theorem core_run_bootTurns {ws : List Word} (h : ws.length ≤ Config.hw.progDepth) :
    Sys2Proof.core.run (ws.length + 2) { State.reset with turns := bootTurns ws } = .next (State.booted ws) := by
  refine (core_run_loadTurns rfl rfl (by omega) 2).trans ?_
  refine (core_run_host rfl (hostAct_writeProgLen_idle _ rfl) 1).trans ?_
  exact core_run_host rfl (hostAct_start rfl rfl rfl _) 0

/-- A number of words that fits program memory is written to PROG_LEN without a clamp. -/
theorem clampedLen_ofNat {n : Nat} (h : n ≤ Config.hw.progDepth) : (clampedLen (BitVec.ofNat 32 n)).toNat = n := by
  have := Config.hw_progDepth_le
  rw [clampedLen_toNat, BitVec.toNat_ofNat, Nat.mod_eq_of_lt (by omega), Nat.min_eq_left h]

/-- Settles O53: the boot turns run to `State.booted`, whose program memory reads back the words loaded. -/
theorem bootLoadsAndStarts : Obligations.BootLoadsAndStarts := by
  refine fun ws hlen => ⟨State.booted ws, core_run_bootTurns hlen, ⟨rfl, rfl, rfl⟩, rfl, rfl, rfl,
    clampedLen_ofNat hlen, fun i hi => progWord_of_lookup ?_⟩
  have hword := lookupKey_loadedFrom ws hi 0 []
  rwa [Nat.zero_add] at hword

end Sys2Proof.Machine
end
